-- ==== Sys2Proof/Word.lean ====
section
/-! DEFINITION. The word types: 8-bit bytes, 16-bit immediates, 32-bit register values (R6). -/

namespace Sys2Proof

/-- One byte: a memory cell, an opcode, an output unit (R6). -/
abbrev Byte := BitVec 8

/-- The raw 16 bits of LoadImmediate's immediate (R63). -/
abbrev Half := BitVec 16

/-- A register value, an address, the STATUS word (R6, R7, R29). -/
abbrev Word := BitVec 32

end Sys2Proof
end

