-- ==== Sys2Proof/Config.lean ====
section
/-! DEFINITION. What the spec fixes for the core (R6) and the values it leaves free (R8, R231). -/

namespace Sys2Proof

/-- Bytes of the memory array; the first address that does not exist (R6, R26). The spec's literals are
unaudited (D17): UNVERIFIED, unsafe (notes/assumptions/18.md). -/
abbrev MEMORY_SIZE : Nat := 4096

/-- Registers of the register file; the first illegal register index (R6, R62). -/
abbrev NUM_REGS : Nat := 16

/-- Bytes of the longest instruction (R60). -/
abbrev MAX_LENGTH : Nat := 4

/-- Bytes of the longest text a step offers, "-2147483648" (R162). -/
abbrev MAX_TEXT : Nat := 11

/-- FREE VALUE: the host's answer to the offered byte of that number, `true` for accept, where State's
`port.answers` lists no answer for it (OUT_ACCEPT, R8, R164). DESIGN CHOICE, safe: no proof can see the
answer (notes/assumptions/4.md). -/
opaque Config.outAccept : Nat → Bool

/-- FREE VALUE: what a host's view, by its number, reads for a register while the core holds no machine
(R231, I8). DESIGN CHOICE, safe (notes/assumptions/7.md). -/
opaque Config.unspecifiedReg : Nat → Nat → Word

/-- FREE VALUE: what a host's view, by its number, reads at an address while the core holds no machine
(R231, I8). DESIGN CHOICE, safe (notes/assumptions/7.md). -/
opaque Config.unspecifiedByte : Nat → Nat → Byte

end Sys2Proof
end

