-- ==== Sys2Proof/Syntax.lean ====
section
/-! DEFINITION. The eight instructions of the opcode map (R65), with their operand fields as they stand
in the encoding (R61). -/

namespace Sys2Proof

/-- A register-index field: one whole byte, 0 to 255 (R62). Only 0 to 15 name a register; the dispatcher
checks that (R85), so an illegal field is still syntax. -/
abbrev RegField := Byte

/-- One constructor per row of spec/opcode_table.json, operands in encoding order (R61, R64, R65). -/
inductive Instr where
  /-- Opcode 1, R100: destination `ri`, source `rj`, condition `rk`. -/
  | condMove (ri rj rk : RegField)
  /-- Opcode 2, R120: address in `ri`, data in `rj`. -/
  | store (ri rj : RegField)
  /-- Opcode 3, R121: destination `ri`, address in `rj`. -/
  | load (ri rj : RegField)
  /-- Opcode 4, R101: destination `ri`, signed 16-bit immediate. -/
  | loadImmediate (ri : RegField) (imm : Half)
  /-- Opcode 5, R140: destination `ri`, minuend `rj`, subtrahend `rk`. -/
  | sub (ri rj rk : RegField)
  /-- Opcode 6, R161: source `ri`. -/
  | outChar (ri : RegField)
  /-- Opcode 7, R180: no operand. -/
  | halt
  /-- Opcode 8, R162: source `ri`. -/
  | outInt (ri : RegField)
  deriving DecidableEq, Repr

end Sys2Proof
end

