-- ==== Sys2Proof/WellFormed.lean ====
section
/-! DEFINITION. When an instruction is legal: every register field names a register (R62, R68, R85). -/

namespace Sys2Proof

/-- The register fields an instruction's format holds, in encoding order: those R85 checks. -/
def Instr.regFields : Instr → List RegField
  | .condMove ri rj rk => [ri, rj, rk]
  | .store ri rj => [ri, rj]
  | .load ri rj => [ri, rj]
  | .loadImmediate ri _ => [ri]
  | .sub ri rj rk => [ri, rj, rk]
  | .outChar ri => [ri]
  | .halt => []
  | .outInt ri => [ri]

/-- Whether a register-index byte names a register: 0 to 15, no bits masked (R62). -/
def RegField.legal (f : RegField) : Bool := decide (f.toNat < NUM_REGS)

/-- Whether every register field is legal (R85). An immediate may be any 16 bits (R68). -/
def Instr.wellFormed (i : Instr) : Bool := i.regFields.all RegField.legal

end Sys2Proof
end

