-- ==== Sys2Proof/Decode.lean ====
section
/-! DEFINITION. The decoder (R60 to R71), total on any bytes, and the encoder, both from the spec's
encoding tables. The decoder splits fields; the dispatcher checks register fields (R62, R85). -/

namespace Sys2Proof

/-- Why the decoder refuses a byte string. -/
inductive DecodeError where
  /-- The opcode byte is not one of 1 to 8 (R67). -/
  | illegalOpcode
  /-- The string ends before the opcode or before the last operand byte the opcode calls for (R60). -/
  | missingBytes
  deriving DecidableEq, Repr

/-- The table `LEN` of R65, with the `valid` output of R71: `none` for an illegal opcode (R67). -/
def opcodeLength (op : Byte) : Option Nat :=
  match op.toNat with
  | 1 => some 4
  | 2 => some 3
  | 3 => some 3
  | 4 => some 4
  | 5 => some 4
  | 6 => some 2
  | 7 => some 1
  | 8 => some 2
  | _ => none

/-- What the decoder answers: the instruction and the bytes after it, or the reason it refuses. -/
abbrev Decoded := Except DecodeError (Instr × List Byte)

/-- Format `R` (R61): one register field. -/
def decodeR (mk : RegField → Instr) : List Byte → Decoded
  | ri :: rest => .ok (mk ri, rest)
  | _ => .error .missingBytes

/-- Format `RR` (R61): two register fields, ri first. The order of rj and rk rests on D3: DEDUCED, unsafe
(notes/assumptions/12.md). -/
def decodeRR (mk : RegField → RegField → Instr) : List Byte → Decoded
  | ri :: rj :: rest => .ok (mk ri rj, rest)
  | _ => .error .missingBytes

/-- Format `RRR` (R61): three register fields, in the order ri, rj, rk. -/
def decodeRRR (mk : RegField → RegField → RegField → Instr) : List Byte → Decoded
  | ri :: rj :: rk :: rest => .ok (mk ri rj rk, rest)
  | _ => .error .missingBytes

/-- Format `RI` (R61, R63): a register field, then the immediate, low byte first. -/
def decodeRI (mk : RegField → Half → Instr) : List Byte → Decoded
  | ri :: lo :: hi :: rest => .ok (mk ri (hi ++ lo), rest)
  | _ => .error .missingBytes

/-- The instruction at the front of a byte string, by the opcode map R65, and the bytes after it. -/
def decode : List Byte → Decoded
  | [] => .error .missingBytes
  | op :: rest =>
    match op.toNat with
    | 1 => decodeRRR .condMove rest
    | 2 => decodeRR .store rest
    | 3 => decodeRR .load rest
    | 4 => decodeRI .loadImmediate rest
    | 5 => decodeRRR .sub rest
    | 6 => decodeR .outChar rest
    | 7 => .ok (.halt, rest)
    | 8 => decodeR .outInt rest
    | _ => .error .illegalOpcode

/-- The bytes of an instruction in memory order (R61, R74). -/
def encode : Instr → List Byte
  | .condMove ri rj rk => [0x01, ri, rj, rk]
  | .store ri rj => [0x02, ri, rj]
  | .load ri rj => [0x03, ri, rj]
  | .loadImmediate ri imm => [0x04, ri, imm.extractLsb' 0 8, imm.extractLsb' 8 8]
  | .sub ri rj rk => [0x05, ri, rj, rk]
  | .outChar ri => [0x06, ri]
  | .halt => [0x07]
  | .outInt ri => [0x08, ri]

/-- The first `n` bytes of the number `w`, least significant first: how memory holds a value (R41). -/
def leBytes : Nat → Nat → List Byte
  | 0, _ => []
  | n + 1, w => BitVec.ofNat 8 w :: leBytes n (w / 256)

/-- The value of bytes read least significant first (R10, R41). -/
def leValue : List Byte → Nat
  | [] => 0
  | b :: bs => b.toNat + 256 * leValue bs

/-- The bytes of an instruction whose `nbits` bits are the number `w` (the gathered value of R61), zeros
above, up to the longest instruction. -/
def tableBytes (nbits w : Nat) : List Byte := leBytes MAX_LENGTH (w % 2 ^ nbits)

/-- What the decoder reads from an instruction whose bits are `w`, numbered as the opcode table numbers
them; `none` where it refuses. -/
def decodeTableWord (nbits w : Nat) : Option Instr :=
  match decode (tableBytes nbits w) with
  | .ok (i, _) => some i
  | .error _ => none

end Sys2Proof
end

