-- ==== Sys2Proof/Machine/State.lean ====
section
/-! DEFINITION. The state of the core as plain data (R20 to R31), the reasons a step can stop, and the
state after reset. -/

namespace Sys2Proof.Machine

/-- A legal register index: 0 to 15 (R21, R62). -/
abbrev Reg := Fin NUM_REGS

/-- The five fault kinds (R200). Each is recorded in STATUS by a NEXT state; none stops the model. -/
inductive FaultKind where
  /-- Raised by LOAD of an image longer than the memory (R230). -/
  | memoryOverflow
  /-- Raised by an instruction's register field of 16 or more (R85) and by SET_REG (R33). -/
  | invalidRegister
  /-- Raised by an opcode byte outside 1 to 8 (R82). -/
  | invalidInstruction
  /-- Raised by an IP, operand span or data span outside the memory (R81, R84, R120, R121). -/
  | invalidMemoryAccess
  /-- Raised by an output byte the host rejects (R164). -/
  | outputError
  deriving DecidableEq, Repr

/-- The field OUTCOME of STATUS (R29). -/
inductive StepOutcome where
  /-- `NONE`: no step has run since the LOAD. -/
  | noStep
  /-- `CONTINUE`. -/
  | continued
  /-- `HALT`. -/
  | halted
  /-- `FAULT`. -/
  | faulted
  deriving DecidableEq, Repr

/-- The fields of the dispatcher's STATUS register (R29); `statusWord` gives the 32 bits the host reads. -/
structure Status where
  outcome : StepOutcome
  fault : Option FaultKind
  running : Bool
  deriving DecidableEq, Repr

/-- The memory array: cells of addresses below `MEMORY_SIZE`, addresses strictly rising, no cell of value
0; an address not listed reads 0, the zero fill of LOAD (R26, R31). DEDUCED, safe (notes/assumptions/3.md). -/
abbrev Memory := List Host.Cell

/-- The architectural state of the core, the three parts of R20, and whether there is a machine (R231): all
that R34 leaves as state. -/
structure CoreState where
  /-- x[0] to x[15]; x[0] is IP (R21, R22). -/
  regs : Vector Word NUM_REGS
  /-- M[0] to M[4095] (R26). -/
  mem : Memory
  /-- The dispatcher's status register (R29). -/
  status : Status
  /-- Whether the core holds a machine (R231). -/
  loaded : Bool
  deriving DecidableEq, Repr

/-- The host's side of the output port, no state of the core (R34). DESIGN CHOICE, safe: it feeds the
inputs of the step relation (`stepWith`) to the fixed form of `step`, which has no input but State
(notes/assumptions/4.md and 5.md). -/
structure Port where
  /-- The bytes the host has accepted, oldest first (R160, R164). -/
  output : List Byte
  /-- The host's answers to the next bytes offered, `true` for accept (OUT_ACCEPT, R8). -/
  answers : List Bool
  /-- How many bytes the port has offered, the argument of `Config.outAccept`. -/
  offers : Nat
  deriving DecidableEq, Repr

/-- What `step` runs on: the core, and beside it the host's side of the output port. -/
structure State extends CoreState where
  /-- The host's side of the output port, the model's own. -/
  port : Port
  deriving DecidableEq, Repr

/-- Why the machine would stop with a fault: NEVER. The core has no constructor here because each of its
five faults is a next state with STATUS written and the host goes on from it (R87, R89, R203). DEDUCED,
unsafe where a claim rests on the state after a fault (C2, I1; notes/assumptions/1.md). -/
inductive Fault where
  deriving DecidableEq, Repr

/-- Why the machine refuses a step. -/
inductive Refusal where
  /-- An instruction that has no meaning in this model yet. No arm of `exec` answers it. Safe. -/
  | notModelled (mnemonic : String)
  /-- Raised by a step, and by the host ports RUN and SET_REG, while the core holds no machine (R231:
  "a model refuses them"). Safe. -/
  | noMachine
  deriving DecidableEq, Repr

/-- STATUS = 0 (R31). -/
def Status.reset : Status := ⟨.noStep, none, false⟩

/-- The state right after reset, that is after a successful LOAD of the empty image: registers 0, memory
all zero, STATUS 0 (R31, R230); the model's own field empty. DESIGN CHOICE, unsafe: which image, and that
the host's side starts empty (notes/assumptions/2.md, 4.md, 5.md). -/
def State.reset : State where
  regs := Vector.replicate NUM_REGS 0
  mem := []
  status := Status.reset
  loaded := true
  port := ⟨[], [], 0⟩

/-- Before the first LOAD: no machine, STATUS 0 (R231). The register and memory contents written here are
read by nothing. DESIGN CHOICE, safe (notes/assumptions/6.md). -/
def State.powerOn : State := { State.reset with loaded := false }

end Sys2Proof.Machine
end

