-- ==== Sys2Proof/Machine/Flags.lean ====
section
/-! DEFINITION. The core has no flags (R27). This file gives the bits of its one status register, STATUS
(R29, R200). -/

namespace Sys2Proof.Machine

/-- The value of field OUTCOME, bits 1:0 (R29). -/
def StepOutcome.code : StepOutcome → Nat
  | .noStep => 0
  | .continued => 1
  | .halted => 2
  | .faulted => 3

/-- The code of a fault kind (R200). -/
def FaultKind.code : FaultKind → Nat
  | .memoryOverflow => 1
  | .invalidRegister => 2
  | .invalidInstruction => 3
  | .invalidMemoryAccess => 4
  | .outputError => 5

/-- The value of field FAULT, bits 4:2: 0 for none (R29). -/
def faultCode : Option FaultKind → Nat
  | none => 0
  | some k => k.code

/-- The 32 bits of STATUS; bits 31:6 read 0 (R29). -/
def statusWord (st : Status) : Word :=
  BitVec.ofNat 32 (st.outcome.code + 4 * faultCode st.fault + 32 * st.running.toNat)

/-- STATUS after a step that goes on: RUNNING is kept, since a RUN in progress goes on (R87, R88). -/
def statusContinued (st : Status) : Status := ⟨.continued, none, st.running⟩

/-- STATUS after Halt: a RUN in progress ends (R87, R88). -/
def statusHalted : Status := ⟨.halted, none, false⟩

/-- STATUS after a fault of kind `k`: a RUN in progress ends (R87, R88). -/
def statusFaulted (k : FaultKind) : Status := ⟨.faulted, some k, false⟩

end Sys2Proof.Machine
end

