-- ==== Sys2Proof/Machine/Ops.lean ====
section
/-! DEFINITION. The primitives of R10 over registers, memory and the output port, the ends of a step
(R87), and taking a fault (R203, R204). -/

namespace Sys2Proof.Machine

/-! ### Memory -/

/-- The byte at address `a`: the listed one, else the zero fill (R31, R48). -/
def Memory.read : Memory → Nat → Byte
  | [], _ => 0
  | (k, v) :: rest, a => if a = k then v else Memory.read rest a

/-- Put byte `b` at address `a`, keeping the canonical form: a zero byte is not listed. -/
def Memory.write : Memory → Nat → Byte → Memory
  | [], a, b => if b = 0 then [] else [(a, b)]
  | (k, v) :: rest, a, b =>
    if a < k then (if b = 0 then (k, v) :: rest else (a, b) :: (k, v) :: rest)
    else if a = k then (if b = 0 then rest else (a, b) :: rest)
    else (k, v) :: Memory.write rest a b

/-- The form every memory has: addresses at or above `lo`, strictly rising, below `MEMORY_SIZE`, no zero
byte listed. -/
def Memory.wfFrom : Nat → Memory → Bool
  | _, [] => true
  | lo, (k, v) :: rest =>
    decide (lo ≤ k) && decide (k < MEMORY_SIZE) && decide (v ≠ 0) && Memory.wfFrom (k + 1) rest

/-- The canonical form, so that equal memories are equal data. -/
def Memory.wf (m : Memory) : Bool := Memory.wfFrom 0 m

/-- The `n` bytes from address `a` on. -/
def Memory.readBytes (m : Memory) : Nat → Nat → List Byte
  | _, 0 => []
  | a, n + 1 => m.read a :: Memory.readBytes m (a + 1) n

/-- Put a byte string at address `a`, first byte lowest. -/
def Memory.writeBytes : Memory → Nat → List Byte → Memory
  | m, _, [] => m
  | m, a, b :: bs => Memory.writeBytes (m.write a b) (a + 1) bs

/-- `InRange(a, n)`: the span lies inside the memory, in unbounded arithmetic (R10, R44). The spec's own
choice (D4): DEDUCED, safe (notes/assumptions/13.md). -/
abbrev InRange (a n : Nat) : Prop := a + n ≤ MEMORY_SIZE

/-- `MemRead(a, n)`: little-endian; the caller has checked `InRange a n` (R10, R41). -/
def Memory.memRead (m : Memory) (a n : Nat) : Nat := leValue (m.readBytes a n)

/-- `MemWrite(a, n, v)`: little-endian; the caller has checked `InRange a n` (R10, R41). -/
def Memory.memWrite (m : Memory) (a n v : Nat) : Memory := m.writeBytes a (leBytes n v)

/-! ### Registers -/

/-- The instruction pointer's index (R22). -/
abbrev IP : Reg := 0

/-- `x[r]` (R9). -/
def State.readReg (s : State) (r : Reg) : Word := s.regs[r]

/-- `x[r] <- v` (R9). Register 0 has no path of its own (R22). -/
def State.writeReg (s : State) (r : Reg) (v : Word) : State := { s with regs := s.regs.set r v }

/-- The instruction pointer, `x[0]` (R25). -/
def State.ip (s : State) : Word := s.readReg IP

/-- Replace the memory. -/
def State.withMem (s : State) (m : Memory) : State := { s with mem := m }

/-- Replace STATUS. -/
def State.withStatus (s : State) (st : Status) : State := { s with status := st }

/-- The pre-advance `x[0] <- a0 + len` (R83). -/
def preAdvance (len : Nat) (s : State) : State := s.writeReg IP (s.ip + BitVec.ofNat 32 len)

/-! ### The ends of a step -/

/-- `finish Continue` (R10, R87). -/
def finishContinue (s : State) : State := s.withStatus (statusContinued s.status)

/-- `finish Halt` (R10, R87). -/
def finishHalt (s : State) : State := s.withStatus statusHalted

/-- `raise F`: TAKING A FAULT. The kind goes into STATUS and a RUN in progress ends; no register, byte or
pc is saved or changed, and control goes to the host, not to a handler (R80, R87, R201, R203, R204). There
is no return from a fault: the host's next STEP goes on from this state (R89, R205). DEDUCED, unsafe: a
next state, with the pre-advance kept as C2 resolves (notes/assumptions/1.md). -/
def raise (k : FaultKind) (s : State) : State := s.withStatus (statusFaulted k)

/-! ### The output port -/

/-- The host's answer to the `k`-th byte from now: listed in `answers`, else a free value (R8, R164). -/
def Port.answer (p : Port) (k : Nat) : Bool := (p.answers[k]?).getD (Config.outAccept (p.offers + k))

/-- `Emit(b)`: offer one byte; the answer, and the host's side after it (R164). -/
def emit (b : Byte) (p : Port) : Bool × Port :=
  (p.answer 0,
    { output := p.output ++ (if p.answer 0 then [b] else [])
      answers := p.answers.tail
      offers := p.offers + 1 })

/-- Offer bytes in order, stopping at the first rejection; whether all were accepted (R162, R167). -/
def emitAll : List Byte → Port → Bool × Port
  | [], p => (true, p)
  | b :: bs, p =>
    if (emit b p).1 then emitAll bs (emit b p).2 else (false, (emit b p).2)

/-- Replace the host's side of the output port. -/
def State.withPort (s : State) (p : Port) : State := { s with port := p }

/-- Offer a text and end the step: STATUS as by `finishContinue` if the host accepted it whole, as by
`raise .outputError` at the first rejection (R161, R162, R165). The port and STATUS alone depend on the
host's answers; written so, the rest of the state evaluates where an answer is a free value. -/
def emitThenFinish (text : List Byte) (s : State) : State :=
  (s.withPort (emitAll text s.port).2).withStatus
    (if (emitAll text s.port).1 then statusContinued s.status else statusFaulted .outputError)

/-! ### Decimal text -/

/-- The decimal digits of `n` before `acc`, most significant first, no leading zero; `fuel` bounds how many. -/
def decDigits : Nat → Nat → List Byte → List Byte
  | 0, _, acc => acc
  | fuel + 1, n, acc =>
    if n < 10 then BitVec.ofNat 8 (0x30 + n) :: acc
    else decDigits fuel (n / 10) (BitVec.ofNat 8 (0x30 + n % 10) :: acc)

/-- `Dec(signed32(w))` (R162, R163): 2^31 has ten digits. PRESUMED by the spec itself: digit order, no
leading zeros, no plus sign; unsafe (notes/assumptions/10.md). -/
def decText (w : Word) : List Byte :=
  if w.toInt < 0 then 0x2D :: decDigits 10 w.toInt.natAbs [] else decDigits 10 w.toInt.natAbs []

end Sys2Proof.Machine
end

