-- ==== Sys2Proof/Machine/Operands.lean ====
section
/-! DEFINITION. The operand forms: the check of register fields (phase 5, R85) and the immediate (R63).
The core has no other addressing mode than register indirect, the register's value unchanged. -/

namespace Sys2Proof.Machine

/-- The register a field names, `none` for an illegal index (R62). -/
def reg? (f : RegField) : Option Reg := if h : f.toNat < NUM_REGS then some ⟨f.toNat, h⟩ else none

/-- Format `R` and `RI`: check ri, then run the instruction (R85). -/
def withReg (ri : RegField) (s : State) (body : Reg → State) : State :=
  match reg? ri with
  | some i => body i
  | none => raise .invalidRegister s

/-- Format `RR`: check ri and rj, then run the instruction (R85). -/
def withRegs2 (ri rj : RegField) (s : State) (body : Reg → Reg → State) : State :=
  match reg? ri, reg? rj with
  | some i, some j => body i j
  | _, _ => raise .invalidRegister s

/-- Format `RRR`: check ri, rj and rk, used or not, then run the instruction (R85). -/
def withRegs3 (ri rj rk : RegField) (s : State) (body : Reg → Reg → Reg → State) : State :=
  match reg? ri, reg? rj, reg? rk with
  | some i, some j, some k => body i j k
  | _, _, _ => raise .invalidRegister s

/-- `sext_32(imm16)` (R9, R63). -/
def sext32 (imm : Half) : Word := imm.signExtend 32

/-- The effective address of Load and Store: the register's value, whole (R7, R120, R121). -/
def dataAddress (s : State) (r : Reg) : Nat := (s.readReg r).toNat

end Sys2Proof.Machine
end

