-- ==== Sys2Proof/Machine/Arithmetic.lean ====
section
/-! DEFINITION. Sub (R140), phases 5 to 7 of a step: the core's only arithmetic (R141). -/

namespace Sys2Proof.Machine

/-- Sub (R140): the difference modulo 2^32, no flag, no trap. -/
def execSub (ri rj rk : RegField) (s : State) : Host.Outcome State Fault Refusal :=
  .next (withRegs3 ri rj rk s fun i j k =>
    finishContinue (s.writeReg i (s.readReg j - s.readReg k)))

end Sys2Proof.Machine
end

