-- ==== Sys2Proof/Machine/Control.lean ====
section
/-! DEFINITION. Halt (R180), phases 5 to 7 of a step. Every jump is a write of register 0 by another
instruction (R181). -/

namespace Sys2Proof.Machine

/-- Halt (R180): nothing latches (R89). -/
def execHalt (s : State) : Host.Outcome State Fault Refusal := .next (finishHalt s)

end Sys2Proof.Machine
end

