-- ==== Sys2Proof/Machine/LoadStore.lean ====
section
/-! DEFINITION. Store (R120) and Load (R121), phases 5 to 7 of a step. -/

namespace Sys2Proof.Machine

/-- Store (R120): the whole span is checked before any byte is written (R45). -/
def execStore (ri rj : RegField) (s : State) : Host.Outcome State Fault Refusal :=
  .next (withRegs2 ri rj s fun i j =>
    if InRange (dataAddress s i) 4 then
      finishContinue (s.withMem (s.mem.memWrite (dataAddress s i) 4 (s.readReg j).toNat))
    else raise .invalidMemoryAccess s)

/-- Load (R121). -/
def execLoad (ri rj : RegField) (s : State) : Host.Outcome State Fault Refusal :=
  .next (withRegs2 ri rj s fun i j =>
    if InRange (dataAddress s j) 4 then
      finishContinue (s.writeReg i (BitVec.ofNat 32 (s.mem.memRead (dataAddress s j) 4)))
    else raise .invalidMemoryAccess s)

end Sys2Proof.Machine
end

