-- ==== Sys2Proof/Machine/Output.lean ====
section
/-! DEFINITION. OutChar (R161) and OutInt (R162), phases 5 to 7 of a step. -/

namespace Sys2Proof.Machine

/-- OutChar (R161): the low 8 bits of the register. -/
def execOutChar (ri : RegField) (s : State) : Host.Outcome State Fault Refusal :=
  .next (withReg ri s fun i => emitThenFinish [(s.readReg i).setWidth 8] s)

/-- OutInt (R162): the decimal text of the register read as signed. -/
def execOutInt (ri : RegField) (s : State) : Host.Outcome State Fault Refusal :=
  .next (withReg ri s fun i => emitThenFinish (decText (s.readReg i)) s)

end Sys2Proof.Machine
end

