-- ==== Sys2Proof/Machine/RegisterMove.lean ====
section
/-! DEFINITION. Register moves: CondMove (R100) and LoadImmediate (R101). Each meaning is phases 5 to 7 of
a step, on the state the pre-advance left (R83, R86). -/

namespace Sys2Proof.Machine

/-- CondMove (R100). -/
def execCondMove (ri rj rk : RegField) (s : State) : Host.Outcome State Fault Refusal :=
  .next (withRegs3 ri rj rk s fun i j k =>
    finishContinue (if s.readReg k ≠ 0 then s.writeReg i (s.readReg j) else s))

/-- LoadImmediate (R101). -/
def execLoadImmediate (ri : RegField) (imm : Half) (s : State) : Host.Outcome State Fault Refusal :=
  .next (withReg ri s fun i => finishContinue (s.writeReg i (sext32 imm)))

end Sys2Proof.Machine
end

