-- ==== Sys2Proof/Machine/Dispatch.lean ====
section
/-! DEFINITION. The dispatcher's selection of an instruction's rule (R86): phases 5 to 7 of a step. -/

namespace Sys2Proof.Machine

/-- Run one decoded instruction on the state the pre-advance left (R85 to R87). -/
def exec (i : Instr) (s : State) : Host.Outcome State Fault Refusal :=
  match i with
  | .condMove ri rj rk => Sys2Proof.Machine.execCondMove ri rj rk s
  | .store ri rj => Sys2Proof.Machine.execStore ri rj s
  | .load ri rj => Sys2Proof.Machine.execLoad ri rj s
  | .loadImmediate ri imm => Sys2Proof.Machine.execLoadImmediate ri imm s
  | .sub ri rj rk => Sys2Proof.Machine.execSub ri rj rk s
  | .outChar ri => Sys2Proof.Machine.execOutChar ri s
  | .halt => Sys2Proof.Machine.execHalt s
  | .outInt ri => Sys2Proof.Machine.execOutInt ri s

end Sys2Proof.Machine
end

