-- ==== Sys2Proof/Machine/Fetch.lean ====
section
/-! DEFINITION. Phases 1 to 4 of a step: the IP check, the opcode fetch, the pre-advance and the operand
fetch (R81 to R84). -/

namespace Sys2Proof.Machine

/-- What phases 1 to 4 leave. -/
inductive Fetched where
  /-- An instruction to run, on the pre-advanced state. -/
  | ready (i : Instr) (s : State)
  /-- The step has faulted. -/
  | faulted (s : State)
  /-- The core holds no machine, so it has no step (R231). -/
  | noMachine
  deriving DecidableEq, Repr

/-- The operand fetch on a pre-advanced state: the span check, then the fields (R84). The decoder accepts
every string of a legal opcode's length (`decode_of_opcodeLength`), so its refusals are not reached. -/
def fetchOperands (a0 len : Nat) (s : State) : Fetched :=
  if InRange a0 len then
    match decode (s.mem.readBytes a0 len) with
    | .ok (i, _) => .ready i s
    | .error .illegalOpcode => .faulted (raise .invalidInstruction s)
    | .error .missingBytes => .faulted (raise .invalidMemoryAccess s)
  else .faulted (raise .invalidMemoryAccess s)

/-- The opcode fetch and the pre-advance (R82, R83). -/
def fetchOpcode (a0 : Nat) (s : State) : Fetched :=
  match opcodeLength (s.mem.read a0) with
  | some len => fetchOperands a0 len (preAdvance len s)
  | none => .faulted (raise .invalidInstruction s)

/-- Phases 1 to 4 (R80 to R84). -/
def fetch (s : State) : Fetched :=
  if s.loaded then
    if s.ip.toNat < MEMORY_SIZE then fetchOpcode s.ip.toNat s
    else .faulted (raise .invalidMemoryAccess s)
  else .noMachine

/-- Where `withFetchWord` puts an instruction of `n` bytes: at IP if it fits there, else at 0. -/
def placeAddress (n : Nat) (s : State) : Nat := if InRange s.ip.toNat n then s.ip.toNat else 0

/-- The bytes of `bs` that exist from address `a` on, put into memory. -/
def placeBytes (a : Nat) (bs : List Byte) (s : State) : State :=
  s.withMem (s.mem.writeBytes a (bs.take (MEMORY_SIZE - a)))

/-- A state whose next step fetches the instruction of `n` bytes that `bs` starts with: the load of a
program from outside (R230). DESIGN CHOICE, safe (notes/assumptions/2.md). IP is kept unless the instruction does not fit there. -/
def placeInstruction (n : Nat) (bs : List Byte) (s : State) : State :=
  { placeBytes (placeAddress n s) bs (s.writeReg IP (BitVec.ofNat 32 (placeAddress n s))) with loaded := true }

end Sys2Proof.Machine
end

