-- ==== Sys2Proof/Machine/Step.lean ====
section
/-! DEFINITION. One step of the core (R80): a STEP, or one iteration of a RUN in progress (R88). -/

namespace Sys2Proof.Machine

/-- One step: phases 1 to 4, then the instruction (R80). A fault is a next state (R87, R203); without a
machine there is no step (R231). -/
def step (s : State) : Host.Outcome State Fault Refusal :=
  match fetch s with
  | .ready i t => exec i t
  | .faulted t => .next t
  | .noMachine => .refused .noMachine

/-- `s` with the instruction whose bits are `w` stored where `step` fetches next. -/
def State.withFetchWord (s : State) (nbits w : Nat) : State :=
  placeInstruction (nbits / 8) (tableBytes nbits w) s

end Sys2Proof.Machine
end

