-- ==== Sys2Proof/Machine/HostPorts.lean ====
section
/-! DEFINITION. The host transactions LOAD, STEP, RUN and SET_REG, and the views REG_VIEW, MEM_VIEW and
STATUS (R32, R33, R88, R230, R231, R235). -/

namespace Sys2Proof.Machine

/-- A host transaction that may change the core (R235). -/
inductive Transaction where
  | load (image : List Byte)
  | step
  | run
  | setReg (index value : Word)
  deriving DecidableEq, Repr

/-- How the core answers a host transaction. -/
inductive HostResult where
  /-- It took effect. -/
  | done (s : State)
  /-- A RUN is in progress: the host's transaction waits, the core is unchanged (R235). DESIGN CHOICE, safe:
  the waiting transaction stays with the host (notes/assumptions/9.md). -/
  | waits
  /-- The core holds no machine (R231). -/
  | refused (r : Refusal)
  deriving DecidableEq, Repr

/-- How a RUN stands after a number of its steps (R88). -/
inductive RunResult where
  /-- `Completed`: it ended at a Halt. -/
  | completed (s : State)
  /-- `Error(F)`: it ended at a fault. -/
  | error (k : FaultKind) (s : State)
  /-- It has not ended. -/
  | unfinished (s : State)
  /-- The core holds no machine (R231). -/
  | refused (r : Refusal)
  deriving DecidableEq, Repr

/-- LOAD that fits (R230): the image, zero fill, registers and STATUS 0. The host's side of the port is kept (R34). -/
def loadImage (image : List Byte) (s : State) : State :=
  { s with
    regs := State.reset.regs
    mem := Memory.writeBytes [] 0 image
    status := Status.reset
    loaded := true }

/-- LOAD that does not fit (R230, R231): no machine, MemoryOverflow. The discarded contents are replaced by
the reset ones, which nothing can read. DESIGN CHOICE, safe (notes/assumptions/6.md). -/
def loadFails (s : State) : State :=
  { s with
    regs := State.reset.regs
    mem := []
    status := statusFaulted .memoryOverflow
    loaded := false }

/-- LOAD(img), the only reset (R230). -/
def load (image : List Byte) (s : State) : State :=
  if image.length ≤ MEMORY_SIZE then loadImage image s else loadFails s

/-- SET_REG(index, value) on a machine: the index is a 32-bit value, compared whole (R33). -/
def setReg (index value : Word) (s : State) : State :=
  if h : index.toNat < NUM_REGS then s.writeReg ⟨index.toNat, h⟩ value else raise .invalidRegister s

/-- RUN begins: RUNNING is set, OUTCOME and FAULT stay (R88). Its steps are `step`s. DEDUCED, safe
(notes/assumptions/8.md). -/
def beginRun (s : State) : State := s.withStatus { s.status with running := true }

/-- A step's outcome as the answer to STEP. -/
def ofStep : Host.Outcome State Fault Refusal → HostResult
  | .next t => .done t
  | .fault f => nomatch f
  | .refused r => .refused r

/-- What only a held machine does (R231). -/
def onMachine (s t : State) : HostResult := if s.loaded then .done t else .refused .noMachine

/-- One host transaction (R33, R80, R88, R230, R231, R235). -/
def transact (tr : Transaction) (s : State) : HostResult :=
  if s.status.running then .waits
  else
    match tr with
    | .load image => .done (load image s)
    | .step => ofStep (step s)
    | .run => onMachine s (beginRun s)
    | .setReg index value => onMachine s (setReg index value s)

/-- How the step that ended a RUN reported it (R88). -/
def runEnd (t : State) : RunResult :=
  match t.status.fault with
  | some k => .error k t
  | none => .completed t

/-- A RUN in progress, for at most `n` more steps: it goes on while RUNNING is set (R88). -/
def continueRun : Nat → State → RunResult
  | 0, s => .unfinished s
  | n + 1, s =>
    match step s with
    | .next t => if t.status.running then continueRun n t else runEnd t
    | .fault f => nomatch f
    | .refused r => .refused r

/-- RUN, seen for at most `n` steps (R88). -/
def runFor (n : Nat) (s : State) : RunResult :=
  if s.loaded then continueRun n (beginRun s) else .refused .noMachine

/-- The STATUS read: answered at any time (R32, R235). -/
def statusView (s : State) : Word := statusWord s.status

/-- REG_VIEW, the host's view number `n`: the whole register file, `none` while it waits for a RUN to end
(R32, R235); unspecified values without a machine (R231). -/
def regView (n : Nat) (s : State) : Option (Vector Word NUM_REGS) :=
  if s.status.running then none
  else if s.loaded then some s.regs
  else some (Vector.ofFn fun i => Config.unspecifiedReg n i)

/-- MEM_VIEW at address `a` of the array, the host's view number `n` (R32, R56, R231, R235). -/
def memView (n : Nat) (a : Fin MEMORY_SIZE) (s : State) : Option Byte :=
  if s.status.running then none
  else if s.loaded then some (s.mem.read a)
  else some (Config.unspecifiedByte n a)

end Sys2Proof.Machine
end

