-- ==== Sys2Proof/Machine/StepRelation.lean ====
section
/-! DEFINITION. The step relation of R34 on the core's own state: the host's answers, the image and the
choice of transaction are its inputs, and the bytes delivered are an output of it. -/

namespace Sys2Proof.Machine

/-- What a step or a host transaction makes of the core. -/
inductive CoreResult where
  /-- It took effect, and the output port delivered these bytes to the host. -/
  | done (core : CoreState) (delivered : List Byte)
  /-- A RUN is in progress (R235). -/
  | waits
  /-- The core holds no machine (R231). -/
  | refused (r : Refusal)
  deriving DecidableEq, Repr

/-- The core with a host that answers the `k`-th byte of the coming step by `accept k`; a step offers at most
`MAX_TEXT` bytes (R162). -/
def CoreState.withHost (accept : Nat → Bool) (c : CoreState) : State :=
  { c with port := { output := [], answers := (List.range MAX_TEXT).map accept, offers := 0 } }

/-- The core and the delivered bytes after a transaction; the rest of the host's side is not the core's. -/
def ofHost : HostResult → CoreResult
  | .done t => .done t.toCoreState t.port.output
  | .waits => .waits
  | .refused r => .refused r

/-- THE STEP RELATION: one step of the core, the host's answers an input (R8, R34, R80, R164). -/
def stepWith (accept : Nat → Bool) (c : CoreState) : CoreResult := ofHost (ofStep (step (c.withHost accept)))

/-- One host transaction on the core; image, choice of transaction and answers are inputs (R34, R235). -/
def transactWith (accept : Nat → Bool) (tr : Transaction) (c : CoreState) : CoreResult :=
  ofHost (transact tr (c.withHost accept))

end Sys2Proof.Machine
end

