-- ==== Sys2Proof/Safety.lean ====
section
/-! DEFINITION. The terms claims use: the invariant of the machine's state, the destination of an
instruction, and an end of a step without a fault. -/

namespace Sys2Proof.Machine

/-- What every reachable state meets: the memory is canonical; STATUS.FAULT is non-zero exactly when
OUTCOME is FAULT, and MemoryOverflow appears only without a machine (R29); a RUN is in progress only on a
machine (R231). -/
abbrev State.Inv (s : State) : Prop :=
  s.mem.wf = true
    ∧ (s.status.fault.isSome = true ↔ s.status.outcome = .faulted)
    ∧ (s.status.fault = some .memoryOverflow → s.loaded = false)
    ∧ (s.status.running = true → s.loaded = true)

/-- The last step, SET_REG or LOAD recorded no fault (I1). -/
abbrev State.FaultFree (s : State) : Prop := s.status.fault = none

/-- Every register reads as before. -/
abbrev State.SameRegs (s t : State) : Prop := ∀ q, t.readReg q = s.readReg q

/-- Every register but `r` reads as before. -/
abbrev State.SameRegsBut (r : Reg) (s t : State) : Prop := ∀ q, q ≠ r → t.readReg q = s.readReg q

/-- Every byte of memory reads as before. -/
abbrev State.SameMem (s t : State) : Prop := ∀ a, t.mem.read a = s.mem.read a

/-- Nothing was offered to the output port, and the machine is still there or still absent. -/
abbrev State.SameRest (s t : State) : Prop := t.port = s.port ∧ t.loaded = s.loaded

/-- STATUS says that the step goes on; a RUN in progress is still in progress (R87, R88). -/
abbrev State.Continues (s t : State) : Prop := t.status = ⟨.continued, none, s.status.running⟩

/-- STATUS says that the step faulted with kind `k`; a RUN in progress has ended (R87, R88). -/
abbrev State.Faulted (k : FaultKind) (t : State) : Prop := t.status = ⟨.faulted, some k, false⟩

/-- A fault that changes STATUS and nothing else. -/
abbrev State.OnlyFaulted (k : FaultKind) (s t : State) : Prop :=
  s.SameRegs t ∧ s.SameMem t ∧ s.SameRest t ∧ t.Faulted k

/-- The core holds a machine, and the bytes `bs` lie in memory at IP. -/
abbrev State.CodeAt (s : State) (bs : List Byte) : Prop :=
  s.loaded = true ∧ InRange s.ip.toNat bs.length ∧ s.mem.readBytes s.ip.toNat bs.length = bs

/-- The host's side after `n` bytes were offered and `bs` of them delivered (R160, R164). -/
def Port.delivered (p : Port) (bs : List Byte) (n : Nat) : Port :=
  { output := p.output ++ bs, answers := p.answers.drop n, offers := p.offers + n }

/-- The host accepts the next `n` bytes offered (R164). -/
abbrev State.Accepts (s : State) (n : Nat) : Prop := ∀ k, k < n → s.port.answer k = true

/-- The host accepts the next `p` bytes offered and rejects the one after (R164, R167). -/
abbrev State.RejectsAt (s : State) (p : Nat) : Prop := s.Accepts p ∧ s.port.answer p = false

/-! ### Read off the bytes at IP, by the tables of the spec, without the decoder -/

/-- The byte at offset `k` of the instruction at IP. -/
def operandByte (s : State) (k : Nat) : Byte := s.mem.read (s.ip.toNat + k)

/-- The opcode byte at IP, as a number. -/
def opcodeAt (s : State) : Nat := (s.mem.read s.ip.toNat).toNat

/-- `LEN` as the table of R65 lists it, for a legal opcode. -/
def lengthAt (s : State) : Nat :=
  if opcodeAt s = 7 then 1
  else if opcodeAt s = 6 ∨ opcodeAt s = 8 then 2
  else if opcodeAt s = 2 ∨ opcodeAt s = 3 then 3
  else 4

/-- How many register fields the format of the opcode at IP has (R71). -/
def fieldsAt (s : State) : Nat :=
  if opcodeAt s = 1 ∨ opcodeAt s = 5 then 3
  else if opcodeAt s = 2 ∨ opcodeAt s = 3 then 2
  else if opcodeAt s = 7 then 0
  else 1

/-- The value the instruction at IP reads from the register its operand byte `k` names: register 0 reads as
`a0 + len` (R83). -/
def operandValue (s : State) (k : Nat) : Word :=
  if (operandByte s k).toNat = 0 then s.ip + BitVec.ofNat 32 (lengthAt s)
  else (s.regs[(operandByte s k).toNat]?).getD 0

/-- The text the output instruction at IP offers (R161, R162). -/
def textAt (s : State) : List Byte :=
  if opcodeAt s = 6 then [(operandValue s 1).setWidth 8] else decText (operandValue s 1)

/-- The priority list of R202, read off the bytes at IP, and `none` where no check fails. -/
def firstFailingCheck (s : State) : Option FaultKind :=
  if MEMORY_SIZE ≤ s.ip.toNat then some .invalidMemoryAccess
  else if opcodeAt s = 0 ∨ 9 ≤ opcodeAt s then some .invalidInstruction
  else if MEMORY_SIZE < s.ip.toNat + lengthAt s then some .invalidMemoryAccess
  else if ∃ k, k < fieldsAt s ∧ NUM_REGS ≤ (operandByte s (k + 1)).toNat then some .invalidRegister
  else if opcodeAt s = 2 ∧ MEMORY_SIZE < (operandValue s 1).toNat + 4 then some .invalidMemoryAccess
  else if opcodeAt s = 3 ∧ MEMORY_SIZE < (operandValue s 2).toNat + 4 then some .invalidMemoryAccess
  else if (opcodeAt s = 6 ∨ opcodeAt s = 8) ∧ ¬ s.Accepts (textAt s).length then some .outputError
  else none

/-- The number a string of ASCII digits stands for, most significant first. -/
def digitsValue (ds : List Byte) : Nat := ds.foldl (fun acc d => 10 * acc + (d.toNat - 0x30)) 0

end Sys2Proof.Machine

namespace Sys2Proof

/-- The register field an instruction writes where it writes a register: R24's last column. -/
def Instr.destination : Instr → Option RegField
  | .condMove ri _ _ => some ri
  | .store _ _ => none
  | .load ri _ => some ri
  | .loadImmediate ri _ => some ri
  | .sub ri _ _ => some ri
  | .outChar _ => none
  | .halt => none
  | .outInt _ => none

end Sys2Proof
end

