-- ==== Sys2Proof/Certificates/Slice0/Obligations.lean ====
section
/-! DEFINITION. The statements for the provers, each from a numbered rule of spec/. STATUS itself is the
spec's own decision D5 (notes/assumptions/11.md); the host's side of the output port, `port`, is the model's
own (notes/assumptions/4.md, 5.md); a fault is a next state as R203 has it (notes/assumptions/1.md). -/

section

open Sys2Proof Sys2Proof.Machine

/-! ### Encoding -/

/-- R65, R61: the opcode map, row by row: instruction, operand places and length; no other byte value is an
instruction. The order of the operand bytes is R61's, the spec's own decision D3 and no rule of its source
(notes/assumptions/12.md). -/
def Obligations.OpcodeMapIsComplete : Prop :=
  (∀ ri rj rk lo hi : Byte, ∀ rest : List Byte,
    decode (0x01 :: ri :: rj :: rk :: rest) = .ok (.condMove ri rj rk, rest)
    ∧ decode (0x02 :: ri :: rj :: rest) = .ok (.store ri rj, rest)
    ∧ decode (0x03 :: ri :: rj :: rest) = .ok (.load ri rj, rest)
    ∧ decode (0x04 :: ri :: lo :: hi :: rest) =
        .ok (.loadImmediate ri (BitVec.ofNat 16 (lo.toNat + 256 * hi.toNat)), rest)
    ∧ decode (0x05 :: ri :: rj :: rk :: rest) = .ok (.sub ri rj rk, rest)
    ∧ decode (0x06 :: ri :: rest) = .ok (.outChar ri, rest)
    ∧ decode (0x07 :: rest) = .ok (.halt, rest)
    ∧ decode (0x08 :: ri :: rest) = .ok (.outInt ri, rest))
  ∧ opcodeLength 1 = some 4 ∧ opcodeLength 2 = some 3 ∧ opcodeLength 3 = some 3
  ∧ opcodeLength 4 = some 4 ∧ opcodeLength 5 = some 4 ∧ opcodeLength 6 = some 2
  ∧ opcodeLength 7 = some 1 ∧ opcodeLength 8 = some 2
  ∧ ∀ op : Byte, ∀ rest : List Byte, op.toNat = 0 ∨ 9 ≤ op.toNat →
      opcodeLength op = none ∧ decode (op :: rest) = .error .illegalOpcode

/-- R61, R68: decoding an encoded instruction gives it back, every operand at every value, whatever bytes
follow. -/
def Obligations.DecodeOfEncodeIsIdentity : Prop :=
  ∀ i : Instr, ∀ rest : List Byte, decode (encode i ++ rest) = .ok (i, rest)

/-- R68: every legal byte string has one meaning: what decodes is the encoding of what it decodes to. -/
def Obligations.EncodeOfDecodeIsIdentity : Prop :=
  ∀ bs rest : List Byte, ∀ i : Instr, decode bs = .ok (i, rest) → bs = encode i ++ rest

/-- R61 with the spec's own vectors (V-S2, C1, S1, D1, B1, O1, I1, H1, L3): the words they stand for. -/
def Obligations.SpecVectorsDecode : Prop :=
  decodeTableWord 32 0x03020101 = some (.condMove 1 2 3)
  ∧ decodeTableWord 24 0x020102 = some (.store 1 2)
  ∧ decodeTableWord 24 0x020103 = some (.load 1 2)
  ∧ decodeTableWord 32 0x00050104 = some (.loadImmediate 1 5)
  ∧ decodeTableWord 32 0x80000104 = some (.loadImmediate 1 0x8000)
  ∧ decodeTableWord 32 0x03020105 = some (.sub 1 2 3)
  ∧ decodeTableWord 16 0x0106 = some (.outChar 1)
  ∧ decodeTableWord 8 0x07 = some .halt
  ∧ decodeTableWord 16 0x0108 = some (.outInt 1)

/-! ### The phases of a step -/

/-- R80, R83, R86: when the bytes at IP decode to an instruction of `n` bytes, the step is that instruction
on the state whose IP has been advanced by `n`, and nothing else lies around it. -/
def Obligations.StepRunsDecodedInstruction : Prop :=
  ∀ s : State, ∀ n : Nat, ∀ i : Instr,
    s.loaded = true → InRange s.ip.toNat n →
    decode (s.mem.readBytes s.ip.toNat n) = .ok (i, []) →
    step s = exec i (s.writeReg IP (s.ip + BitVec.ofNat 32 n))

/-- R81: an IP outside the memory faults, and changes nothing but STATUS. -/
def Obligations.IpOutsideMemoryFaults : Prop :=
  ∀ s : State, s.loaded = true → MEMORY_SIZE ≤ s.ip.toNat →
    ∃ t, step s = .next t ∧ s.OnlyFaulted .invalidMemoryAccess t

/-- R67, R82: an illegal opcode faults with IP unchanged, whatever bytes follow it. -/
def Obligations.IllegalOpcodeFaults : Prop :=
  ∀ s : State, s.loaded = true → s.ip.toNat < MEMORY_SIZE →
    (s.mem.read s.ip.toNat).toNat = 0 ∨ 9 ≤ (s.mem.read s.ip.toNat).toNat →
    ∃ t, step s = .next t ∧ s.OnlyFaulted .invalidInstruction t

/-- R84 (and R83): after a legal opcode IP is `a0 + len`, a sum that does not wrap; operand bytes past the
end of memory fault with that IP and nothing else changed; otherwise the fetched bytes are the
instruction's, and the step runs it. For Halt the check always passes. -/
def Obligations.OperandBytesAreChecked : Prop :=
  ∀ s : State, ∀ len : Nat,
    s.loaded = true → s.ip.toNat < MEMORY_SIZE →
    opcodeLength (s.mem.read s.ip.toNat) = some len →
    (s.writeReg IP (s.ip + BitVec.ofNat 32 len)).ip.toNat = s.ip.toNat + len
    ∧ (MEMORY_SIZE < s.ip.toNat + len →
        ∃ t, step s = .next t
          ∧ (s.writeReg IP (s.ip + BitVec.ofNat 32 len)).OnlyFaulted .invalidMemoryAccess t)
    ∧ (s.ip.toNat + len ≤ MEMORY_SIZE →
        ∃ i, encode i = s.mem.readBytes s.ip.toNat len
          ∧ step s = exec i (s.writeReg IP (s.ip + BitVec.ofNat 32 len)))
    ∧ (s.mem.read s.ip.toNat = 7 → s.ip.toNat + len ≤ MEMORY_SIZE)

/-- R85: an illegal index in any register field of the format faults InvalidRegister and changes nothing
but STATUS, whatever the other fields and the state are. -/
def Obligations.IllegalRegisterFieldFaults : Prop :=
  ∀ s : State, ∀ ri rj rk : RegField, ∀ imm : Half,
    (NUM_REGS ≤ ri.toNat ∨ NUM_REGS ≤ rj.toNat ∨ NUM_REGS ≤ rk.toNat →
      (∃ t, exec (.condMove ri rj rk) s = .next t ∧ s.OnlyFaulted .invalidRegister t)
      ∧ ∃ t, exec (.sub ri rj rk) s = .next t ∧ s.OnlyFaulted .invalidRegister t)
    ∧ (NUM_REGS ≤ ri.toNat ∨ NUM_REGS ≤ rj.toNat →
      (∃ t, exec (.store ri rj) s = .next t ∧ s.OnlyFaulted .invalidRegister t)
      ∧ ∃ t, exec (.load ri rj) s = .next t ∧ s.OnlyFaulted .invalidRegister t)
    ∧ (NUM_REGS ≤ ri.toNat →
      (∃ t, exec (.loadImmediate ri imm) s = .next t ∧ s.OnlyFaulted .invalidRegister t)
      ∧ (∃ t, exec (.outChar ri) s = .next t ∧ s.OnlyFaulted .invalidRegister t)
      ∧ ∃ t, exec (.outInt ri) s = .next t ∧ s.OnlyFaulted .invalidRegister t)

/-- R202, R87, R88: a step on a machine reports the first failing check in the order of the phases; where none
fails it reports HALT for the opcode of Halt and CONTINUE for any other. RUNNING is cleared by Halt and by a
fault and kept by CONTINUE. The order is the spec's own derivation, STATUS its decision D5
(notes/assumptions/11.md). -/
def Obligations.StepReportsFirstFailingCheck : Prop :=
  ∀ s : State, s.loaded = true → ∃ t, step s = .next t
    ∧ t.status =
      (match firstFailingCheck s with
        | some k => ⟨.faulted, some k, false⟩
        | none =>
          if opcodeAt s = 7 then ⟨.halted, none, false⟩ else ⟨.continued, none, s.status.running⟩)

/-- R203: what a fault leaves. Phases 1 and 2 leave IP; the later ones leave it advanced; no other register
and no byte changes; only an OutInt may have delivered a proper prefix of its text. The IP column is the
spec's resolution C2 of a contradiction in its source (notes/assumptions/1.md). -/
def Obligations.FaultLeavesAllButIp : Prop :=
  ∀ s t : State, ∀ k : FaultKind, step s = .next t → t.status.fault = some k →
    s.SameRegsBut IP t ∧ s.SameMem t
    ∧ (MEMORY_SIZE ≤ s.ip.toNat ∨ opcodeAt s = 0 ∨ 9 ≤ opcodeAt s → t.ip = s.ip ∧ t.port.output = s.port.output)
    ∧ (s.ip.toNat < MEMORY_SIZE ∧ 1 ≤ opcodeAt s ∧ opcodeAt s ≤ 8 →
        t.ip = s.ip + BitVec.ofNat 32 (lengthAt s)
        ∧ (t.port.output = s.port.output
          ∨ opcodeAt s = 8 ∧ k = .outputError
            ∧ ∃ p, p < (textAt s).length ∧ t.port.output = s.port.output ++ (textAt s).take p))

/-- R89, R29: nothing latches and no program reads STATUS: two steps from states that differ in STATUS alone
leave the same registers, memory and output, and record the same outcome and fault. Two choices carry it: that
nothing latches is the spec's decision D7 (notes/assumptions/15.md), and the two steps have equal counters and
answers, so that they share even a free answer (notes/assumptions/4.md). -/
def Obligations.StatusDoesNotInfluenceSteps : Prop :=
  ∀ s t : State, ∀ st : Status, step s = .next t →
    ∃ u, step (s.withStatus st) = .next u
      ∧ u.regs = t.regs ∧ u.mem = t.mem ∧ u.loaded = t.loaded ∧ u.port = t.port
      ∧ u.status.outcome = t.status.outcome ∧ u.status.fault = t.status.fault

/-- R120, R203: only a Store changes a byte of memory, and only inside its 4-byte span. -/
def Obligations.OnlyStoreStepsChangeMemory : Prop :=
  ∀ s t : State, ∀ a : Nat, step s = .next t → t.mem.read a ≠ s.mem.read a →
    opcodeAt s = 2 ∧ (operandValue s 1).toNat ≤ a ∧ a < (operandValue s 1).toNat + 4

/-- R160: only OutChar and OutInt reach the output port, and they only append to what the host has. -/
def Obligations.OnlyOutputStepsReachThePort : Prop :=
  ∀ s t : State, step s = .next t →
    (∃ p, t.port.output = s.port.output ++ (textAt s).take p)
    ∧ (opcodeAt s ≠ 6 ∧ opcodeAt s ≠ 8 → s.SameRest t)

/-! ### Results of the instructions -/

/-- R100: CondMove, its encoding and its effect. -/
def Obligations.CondMoveResult : Prop :=
  ∀ s : State, ∀ ri rj rk : RegField, ∀ i j k : Reg,
    reg? ri = some i → reg? rj = some j → reg? rk = some k →
    decode [0x01, ri, rj, rk] = .ok (.condMove ri rj rk, [])
    ∧ ∃ t, exec (.condMove ri rj rk) s = .next t
      ∧ t.readReg i = (if s.readReg k ≠ 0 then s.readReg j else s.readReg i)
      ∧ s.SameRegsBut i t ∧ s.SameMem t ∧ s.SameRest t ∧ s.Continues t

/-- R101, R63: LoadImmediate, its encoding (the low byte of the immediate first) and its effect. -/
def Obligations.LoadImmediateResult : Prop :=
  ∀ s : State, ∀ ri : RegField, ∀ imm : Half, ∀ i : Reg, reg? ri = some i →
    (∀ lo hi : Byte, imm.toNat = lo.toNat + 256 * hi.toNat →
      decode [0x04, ri, lo, hi] = .ok (.loadImmediate ri imm, []))
    ∧ ∃ t, exec (.loadImmediate ri imm) s = .next t
      ∧ (t.readReg i).toNat = (if imm.toNat < 0x8000 then imm.toNat else imm.toNat + 0xFFFF0000)
      ∧ s.SameRegsBut i t ∧ s.SameMem t ∧ s.SameRest t ∧ s.Continues t

/-- R120, R44, R45: Store, its encoding and its effect: in range the four bytes, least significant lowest, and
no others; out of range, an address near 2^32 included, a fault that writes nothing. Two of its clauses are the
spec's own choices: that a failing Store writes no byte is D15 (notes/assumptions/16.md), and that a span near
2^32 does not wrap is D4 (notes/assumptions/13.md). -/
def Obligations.StoreResult : Prop :=
  ∀ s : State, ∀ ri rj : RegField, ∀ i j : Reg,
    s.mem.wf = true → reg? ri = some i → reg? rj = some j →
    decode [0x02, ri, rj] = .ok (.store ri rj, [])
    ∧ ((s.readReg i).toNat + 4 ≤ MEMORY_SIZE →
      ∃ t, exec (.store ri rj) s = .next t
        ∧ (∀ k, k < 4 →
            (t.mem.read ((s.readReg i).toNat + k)).toNat = (s.readReg j).toNat / 256 ^ k % 256)
        ∧ (∀ a, a < (s.readReg i).toNat ∨ (s.readReg i).toNat + 4 ≤ a →
            t.mem.read a = s.mem.read a)
        ∧ s.SameRegs t ∧ s.SameRest t ∧ s.Continues t)
    ∧ (MEMORY_SIZE < (s.readReg i).toNat + 4 →
      ∃ t, exec (.store ri rj) s = .next t ∧ s.OnlyFaulted .invalidMemoryAccess t)

/-- R121, R44, R45: Load, its encoding and its effect: in range the little-endian value of the four bytes;
out of range, an address near 2^32 included, a fault that writes no register. That such a span does not wrap is
the spec's own decision D4 (notes/assumptions/13.md); R45 on a failed check is its decision D15
(notes/assumptions/16.md). -/
def Obligations.LoadResult : Prop :=
  ∀ s : State, ∀ ri rj : RegField, ∀ i j : Reg, ∀ a : Nat,
    reg? ri = some i → reg? rj = some j → a = (s.readReg j).toNat →
    decode [0x03, ri, rj] = .ok (.load ri rj, [])
    ∧ (a + 4 ≤ MEMORY_SIZE →
      ∃ t, exec (.load ri rj) s = .next t
        ∧ (t.readReg i).toNat =
            (s.mem.read a).toNat + 256 * (s.mem.read (a + 1)).toNat
              + 65536 * (s.mem.read (a + 2)).toNat + 16777216 * (s.mem.read (a + 3)).toNat
        ∧ s.SameRegsBut i t ∧ s.SameMem t ∧ s.SameRest t ∧ s.Continues t)
    ∧ (MEMORY_SIZE < a + 4 →
      ∃ t, exec (.load ri rj) s = .next t ∧ s.OnlyFaulted .invalidMemoryAccess t)

/-- R122: Store, then Load at the same address with those bytes untouched between, gives the stored value. The
spec's own derivation from R120 and R121. -/
def Obligations.StoreThenLoadRoundTrips : Prop :=
  ∀ s t u : State, ∀ ri rj rl rm : RegField, ∀ i j l m : Reg,
    s.mem.wf = true → reg? ri = some i → reg? rj = some j → reg? rl = some l → reg? rm = some m →
    (s.readReg i).toNat + 4 ≤ MEMORY_SIZE → exec (.store ri rj) s = .next t →
    u.readReg m = s.readReg i →
    (∀ k, k < 4 → u.mem.read ((s.readReg i).toNat + k) = t.mem.read ((s.readReg i).toNat + k)) →
    ∃ v, exec (.load rl rm) u = .next v ∧ v.readReg l = s.readReg j

/-- R140: Sub, its encoding and its effect: the difference modulo 2^32, with no trap on any operands. -/
def Obligations.SubResult : Prop :=
  ∀ s : State, ∀ ri rj rk : RegField, ∀ i j k : Reg,
    reg? ri = some i → reg? rj = some j → reg? rk = some k →
    decode [0x05, ri, rj, rk] = .ok (.sub ri rj rk, [])
    ∧ ∃ t, exec (.sub ri rj rk) s = .next t
      ∧ ((t.readReg i).toNat : Int) =
          (((s.readReg j).toNat : Int) - ((s.readReg k).toNat : Int)) % 4294967296
      ∧ s.SameRegsBut i t ∧ s.SameMem t ∧ s.SameRest t ∧ s.Continues t

/-- R161, R164, R165: OutChar, its encoding and its effect: accepted, the low 8 bits are the next byte of the
host's stream; rejected, OutputError and nothing is delivered. How the answers stand in State is the model's
choice (notes/assumptions/4.md). -/
def Obligations.OutCharResult : Prop :=
  ∀ s : State, ∀ ri : RegField, ∀ i : Reg, reg? ri = some i →
    decode [0x06, ri] = .ok (.outChar ri, [])
    ∧ (s.port.answer 0 = true →
      ∃ t, exec (.outChar ri) s = .next t
        ∧ t.port.output = s.port.output ++ [BitVec.ofNat 8 ((s.readReg i).toNat % 256)]
        ∧ t.port.answers = s.port.answers.drop 1 ∧ t.port.offers = s.port.offers + 1
        ∧ s.SameRegs t ∧ s.SameMem t ∧ t.loaded = s.loaded ∧ s.Continues t)
    ∧ (s.port.answer 0 = false →
      ∃ t, exec (.outChar ri) s = .next t
        ∧ t.port.output = s.port.output ∧ t.port.answers = s.port.answers.drop 1 ∧ t.port.offers = s.port.offers + 1
        ∧ s.SameRegs t ∧ s.SameMem t ∧ t.loaded = s.loaded ∧ t.Faulted .outputError)

/-- R162, R164, R165, R167: OutInt, its encoding and its effect: the whole text where the host accepts every
byte; where it rejects byte `p`, OutputError with the `p` bytes before it delivered and the rest never
offered. The per-byte answers are the spec's decision D8, how they stand in State the model's choice
(notes/assumptions/4.md). -/
def Obligations.OutIntResult : Prop :=
  ∀ s : State, ∀ ri : RegField, ∀ i : Reg, reg? ri = some i →
    decode [0x08, ri] = .ok (.outInt ri, [])
    ∧ (s.Accepts (decText (s.readReg i)).length →
      ∃ t, exec (.outInt ri) s = .next t
        ∧ t.port.output = s.port.output ++ decText (s.readReg i)
        ∧ t.port.answers = s.port.answers.drop (decText (s.readReg i)).length
        ∧ t.port.offers = s.port.offers + (decText (s.readReg i)).length
        ∧ s.SameRegs t ∧ s.SameMem t ∧ t.loaded = s.loaded ∧ s.Continues t)
    ∧ ∀ p, p < (decText (s.readReg i)).length → s.RejectsAt p →
      ∃ t, exec (.outInt ri) s = .next t
        ∧ t.port.output = s.port.output ++ (decText (s.readReg i)).take p
        ∧ t.port.answers = s.port.answers.drop (p + 1) ∧ t.port.offers = s.port.offers + (p + 1)
        ∧ s.SameRegs t ∧ s.SameMem t ∧ t.loaded = s.loaded ∧ t.Faulted .outputError

/-- R163: the text of a signed integer: a minus sign exactly when it is negative, then the digits of its
magnitude, at least one, most significant first, with no leading zero. R163 marks the digit order, the
absence of leading zeros and of a plus sign as general knowledge (notes/assumptions/10.md). -/
def Obligations.DecimalTextIsRight : Prop :=
  ∀ w : Word, ∃ ds : List Byte,
    decText w = (if w.toInt < 0 then 0x2D :: ds else ds)
    ∧ ds ≠ [] ∧ (∀ d ∈ ds, 0x30 ≤ d.toNat ∧ d.toNat ≤ 0x39)
    ∧ (ds.head? = some 0x30 → ds = [0x30])
    ∧ digitsValue ds = w.toInt.natAbs
    ∧ (decText w).length ≤ 11

/-- R180, R83, R89: Halt, the instruction and the whole step: outcome HALT, IP `a0 + 1`, nothing else. IP's
value is R180's own derivation from the pre-advance of R83. -/
def Obligations.HaltResult : Prop :=
  (∀ s : State, ∃ t, exec .halt s = .next t
    ∧ s.SameRegs t ∧ s.SameMem t ∧ s.SameRest t ∧ t.status = ⟨.halted, none, false⟩)
  ∧ ∀ s : State, s.CodeAt [0x07] → ∃ t, step s = .next t
    ∧ t.ip = s.ip + 1 ∧ t.ip.toNat = s.ip.toNat + 1
    ∧ s.SameRegsBut IP t ∧ s.SameMem t ∧ s.SameRest t ∧ t.status = ⟨.halted, none, false⟩

/-! ### Frames -/

/-- R24, R27: CondMove, Load, LoadImmediate and Sub change at most their destination register and STATUS,
however they end. -/
def Obligations.RegisterInstructionsFrame : Prop :=
  ∀ s t : State, ∀ ri rj rk : RegField, ∀ imm : Half, ∀ i : Instr,
    i = .condMove ri rj rk ∨ i = .load ri rj ∨ i = .loadImmediate ri imm ∨ i = .sub ri rj rk →
    exec i s = .next t →
    (∀ q, reg? ri ≠ some q → t.readReg q = s.readReg q) ∧ s.SameMem t ∧ s.SameRest t
    ∧ (s.Continues t ∨ ∃ k, t.Faulted k ∧ s.SameRegs t)

/-- R24, R27, R45: Store changes no register, not even the base; memory changes at most in the four bytes at
the address register's value, and not at all when it faults. -/
def Obligations.StoreFrame : Prop :=
  ∀ s t : State, ∀ ri rj : RegField, exec (.store ri rj) s = .next t →
    s.SameRegs t ∧ s.SameRest t
    ∧ (∀ i, reg? ri = some i → ∀ a,
        a < (s.readReg i).toNat ∨ (s.readReg i).toNat + 4 ≤ a → t.mem.read a = s.mem.read a)
    ∧ (s.Continues t ∨ ∃ k, t.Faulted k ∧ s.SameMem t)

/-- R24, R27, R160: OutChar, OutInt and Halt change no register and no byte of memory, however they end. -/
def Obligations.OutputAndHaltFrame : Prop :=
  ∀ s t : State, ∀ ri : RegField, ∀ i : Instr,
    i = .outChar ri ∨ i = .outInt ri ∨ i = .halt → exec i s = .next t →
    s.SameRegs t ∧ s.SameMem t ∧ t.loaded = s.loaded
    ∧ (i = .halt → s.SameRest t)
    ∧ (s.Continues t ∨ (∃ k, t.Faulted k) ∨ i = .halt ∧ t.status = ⟨.halted, none, false⟩)

/-! ### Control transfer -/

/-- R181, R182, R183: every instruction that writes register 0 jumps to the value written, whatever it is;
register 0 as a source reads as the address of the next instruction. -/
def Obligations.WritesToRegisterZeroJump : Prop :=
  ∀ s : State, ∀ rj rk lo hi : Byte, ∀ imm : Half,
    (s.CodeAt [0x04, 0x00, lo, hi] → imm.toNat = lo.toNat + 256 * hi.toNat →
      ∃ t, step s = .next t ∧ t.ip = imm.signExtend 32 ∧ s.SameRegsBut IP t ∧ s.Continues t)
    ∧ (rj.toNat < NUM_REGS → rk.toNat < NUM_REGS → s.CodeAt [0x01, 0x00, rj, rk] →
      ∃ t, step s = .next t
        ∧ t.ip = (if operandValue s 3 ≠ 0 then operandValue s 2 else s.ip + 4)
        ∧ s.SameRegsBut IP t ∧ s.Continues t)
    ∧ (rj.toNat < NUM_REGS → s.CodeAt [0x01, 0x00, rj, 0x00] →
      ∃ t, step s = .next t ∧ t.ip = operandValue s 2 ∧ s.SameRegsBut IP t ∧ s.Continues t)
    ∧ (rj.toNat < NUM_REGS → s.CodeAt [0x03, 0x00, rj] → (operandValue s 2).toNat + 4 ≤ MEMORY_SIZE →
      ∃ t, step s = .next t
        ∧ t.ip = BitVec.ofNat 32 (s.mem.memRead (operandValue s 2).toNat 4)
        ∧ s.SameRegsBut IP t ∧ s.Continues t)
    ∧ (rj.toNat < NUM_REGS → rk.toNat < NUM_REGS → s.CodeAt [0x05, 0x00, rj, rk] →
      ∃ t, step s = .next t ∧ t.ip = operandValue s 2 - operandValue s 3
        ∧ s.SameRegsBut IP t ∧ s.Continues t)
    ∧ (rk.toNat < NUM_REGS → s.CodeAt [0x05, 0x00, 0x00, rk] →
      ∃ t, step s = .next t ∧ t.ip = s.ip + 4 - operandValue s 3
        ∧ s.SameRegsBut IP t ∧ s.Continues t)

/-- R75, R100, R140, R241: the pseudo-instructions Mov, GetIP and Clr on a general register: register 0 is
never zero as a condition, and reads as the address of the next instruction as a source. -/
def Obligations.MovGetIpClr : Prop :=
  ∀ s : State, ∀ ri rj : RegField, ∀ i : Reg,
    reg? ri = some i → i ≠ IP → rj.toNat < NUM_REGS →
    (s.CodeAt [0x01, ri, rj, 0x00] →
      ∃ t, step s = .next t ∧ t.readReg i = operandValue s 2 ∧ t.ip = s.ip + 4)
    ∧ (s.CodeAt [0x01, ri, 0x00, 0x00] →
      ∃ t, step s = .next t ∧ (t.readReg i).toNat = s.ip.toNat + 4 ∧ t.ip = s.ip + 4)
    ∧ (s.CodeAt [0x05, ri, ri, ri] →
      ∃ t, step s = .next t ∧ t.readReg i = 0 ∧ t.ip = s.ip + 4)

/-- R242, R54: a Store through register 0 at `a0` overwrites the bytes at `a0 + 3`, and the next step runs
the new bytes. -/
def Obligations.NextFetchSeesTheStore : Prop :=
  ∀ s : State, ∀ rj : RegField, ∀ j : Reg, ∀ i : Instr,
    s.mem.wf = true → s.CodeAt [0x02, 0x00, rj] → InRange (s.ip.toNat + 3) 4 →
    reg? rj = some j → j ≠ IP →
    encode i = (leBytes 4 (s.readReg j).toNat).take (encode i).length →
    ∃ t, step s = .next t ∧ t.ip.toNat = s.ip.toNat + 3
      ∧ step t = exec i (t.writeReg IP (t.ip + BitVec.ofNat 32 (encode i).length))

/-! ### Invariants -/

/-- R31: the state after reset, the LOAD of the empty image (the model's choice, notes/assumptions/2.md),
meets the invariant: memory canonical, STATUS consistent, RUNNING only on a machine. That STATUS is 0 there,
so that no RUN is in progress, is `ResetState`. -/
def Obligations.ResetMeetsInvariant : Prop := State.reset.Inv

/-- R26, R29, R231: every step keeps the invariant: memory canonical, STATUS consistent, a RUN only on a
machine. -/
def Obligations.StepKeepsInvariant : Prop :=
  ∀ s t : State, s.Inv → step s = .next t → t.Inv

/-- R29, R33, R230, R231: every host transaction keeps it, LOAD whatever the image. -/
def Obligations.TransactionsKeepInvariant : Prop :=
  ∀ s t : State, ∀ tr : Transaction, s.Inv → transact tr s = .done t → t.Inv

/-- R26: the canonical form means that memories which read alike are equal data. -/
def Obligations.CanonicalMemoriesAreExtensional : Prop :=
  ∀ m n : Memory, m.wf = true → n.wf = true →
    (∀ a, a < MEMORY_SIZE → m.read a = n.read a) → m = n

/-! ### Reset and the host's ports -/

/-- R230, R31: LOAD, accepted or refused. The STATUS write is the spec's decision D11; that the host's side
of the port is kept is the model's choice (notes/assumptions/5.md). -/
def Obligations.LoadResetsTheCore : Prop :=
  ∀ image : List Byte, ∀ s : State, s.status.running = false →
    (image.length ≤ MEMORY_SIZE →
      ∃ t, transact (.load image) s = .done t
        ∧ (∀ a, (h : a < image.length) → t.mem.read a = image[a])
        ∧ (∀ a, image.length ≤ a → a < MEMORY_SIZE → t.mem.read a = 0)
        ∧ (∀ r, t.readReg r = 0) ∧ statusWord t.status = 0 ∧ t.loaded = true
        ∧ t.port = s.port)
    ∧ (MEMORY_SIZE < image.length →
      ∃ t, transact (.load image) s = .done t
        ∧ t.status = ⟨.faulted, some .memoryOverflow, false⟩ ∧ statusWord t.status = 0x07
        ∧ t.loaded = false)

/-- R31, R232: every piece of the core's state after reset. The model's State.reset is the LOAD of the empty
image (notes/assumptions/2.md); the fields of the host's side start empty (4.md, 5.md). -/
def Obligations.ResetState : Prop :=
  (∀ r, State.reset.readReg r = 0) ∧ (∀ a, State.reset.mem.read a = 0)
  ∧ statusWord State.reset.status = 0 ∧ State.reset.loaded = true
  ∧ State.reset.port = ⟨[], [], 0⟩
  ∧ transact (.load []) State.powerOn = .done State.reset

/-- R234: the empty image, and any image whose byte 0 is illegal, fault at the first step with IP 0. The
spec's own derivation from R230 and R82. -/
def Obligations.BadFirstByteFaultsAtOnce : Prop :=
  ∀ image : List Byte, ∀ s t : State, s.status.running = false →
    image.length ≤ MEMORY_SIZE →
    (∀ h : 0 < image.length, image[0].toNat = 0 ∨ 9 ≤ image[0].toNat) →
    transact (.load image) s = .done t →
    ∃ u, transact .step t = .done u ∧ u.ip = 0 ∧ u.Faulted .invalidInstruction

/-- R33: SET_REG. What STATUS does is the spec's decision D5. -/
def Obligations.SetRegWritesOneRegister : Prop :=
  ∀ s : State, ∀ index value : Word, s.loaded = true → s.status.running = false →
    ((h : index.toNat < NUM_REGS) →
      ∃ t, transact (.setReg index value) s = .done t
        ∧ t.readReg ⟨index.toNat, h⟩ = value ∧ s.SameRegsBut ⟨index.toNat, h⟩ t
        ∧ s.SameMem t ∧ s.SameRest t ∧ t.status = s.status)
    ∧ (NUM_REGS ≤ index.toNat →
      ∃ t, transact (.setReg index value) s = .done t ∧ s.OnlyFaulted .invalidRegister t)

/-- R231: without a machine STEP, RUN and SET_REG are refused (the spec's decision D11,
notes/assumptions/6.md). -/
def Obligations.NoMachineRefuses : Prop :=
  (∀ s : State, s.loaded = false →
    step s = .refused .noMachine
    ∧ (s.status.running = false →
      transact .step s = .refused .noMachine ∧ transact .run s = .refused .noMachine
      ∧ ∀ index value, transact (.setReg index value) s = .refused .noMachine))
  ∧ State.powerOn.loaded = false ∧ statusWord State.powerOn.status = 0

/-- R88, R29: the RUN transaction. On a machine with no RUN in progress it sets RUNNING and leaves OUTCOME,
FAULT, every register, every byte and the host's side; the steps of the RUN follow from there. That a RUN is
this and then repeated `step`s is the model's reading (notes/assumptions/8.md). -/
def Obligations.RunTransactionBegins : Prop :=
  ∀ s : State, s.loaded = true → s.status.running = false →
    ∃ t, transact .run s = .done t ∧ t = beginRun s
      ∧ t.status = ⟨s.status.outcome, s.status.fault, true⟩
      ∧ s.SameRegs t ∧ s.SameMem t ∧ s.SameRest t

/-- R88: a RUN is repeated steps. Seen for `n` steps, the RUN of a machine has completed, ended in an error or
not ended, and is never refused. Where `runFor` says it has ended, the core took `m` steps, all but the last
with outcome CONTINUE, and RUNNING is 0; where it says it has not, every step so far ended in CONTINUE. That the
ending step clears RUNNING itself, and the form of `runFor`, are the model's reading (notes/assumptions/8.md). -/
def Obligations.RunIsRepeatedSteps : Prop :=
  ∀ s : State, ∀ n : Nat, s.loaded = true →
    ((∃ t, runFor n s = .completed t) ∨ (∃ k t, runFor n s = .error k t) ∨ ∃ t, runFor n s = .unfinished t)
    ∧ ∀ t : State,
      (runFor n s = .completed t ∨ (∃ k, runFor n s = .error k t) →
        t.status.running = false
        ∧ ∃ m, 1 ≤ m ∧ m ≤ n ∧ core.run m (beginRun s) = .next t
          ∧ ∀ j, 1 ≤ j → j < m → ∃ u, core.run j (beginRun s) = .next u
            ∧ u.status = ⟨.continued, none, true⟩)
      ∧ (runFor n s = .completed t → t.status.outcome = .halted)
      ∧ (∀ k, runFor n s = .error k t → t.status = ⟨.faulted, some k, false⟩)
      ∧ (runFor n s = .unfinished t → core.run n (beginRun s) = .next t ∧ t.status.running = true
        ∧ ∀ j, 1 ≤ j → j ≤ n → ∃ u, core.run j (beginRun s) = .next u
          ∧ u.status = ⟨.continued, none, true⟩)

/-- R80, R235: the STEP transaction is one step. With no RUN in progress it takes effect exactly where `step`
answers a next state, and leaves that state. -/
def Obligations.StepTransactionIsStep : Prop :=
  ∀ s : State, s.status.running = false →
    ∀ t, transact .step s = .done t ↔ step s = .next t

/-- R34, R8, R164: the step relation has the core's state and the host's answers as its inputs, and the
delivered bytes as an output. `step` is that relation: of the host's side it reads the answers alone, and there
it records what was delivered and how many bytes were offered. On a machine the relation answers for every
pattern of answers. That a host's side stands in State beside the core is the model's choice
(notes/assumptions/4.md, 5.md). -/
def Obligations.StepIsTheStepRelation : Prop :=
  (∀ s t : State, step s = .next t →
    ∃ bs, stepWith s.port.answer s.toCoreState = .done t.toCoreState bs
      ∧ t.port = s.port.delivered bs
        (bs.length + if t.status.fault = some .outputError then 1 else 0))
  ∧ (∀ accept : Nat → Bool, ∀ c : CoreState, c.loaded = true →
    ∃ d bs, stepWith accept c = .done d bs)
  ∧ ∀ accept : Nat → Bool, ∀ c : CoreState, c.loaded = false →
    stepWith accept c = .refused .noMachine

/-- R34, R235: the same of every host transaction: image, choice of transaction and answers are inputs, and
what the core becomes, or that it waits or refuses, depends on them and on the core's state alone. The host's
side in State is the model's choice (notes/assumptions/4.md, 5.md). -/
def Obligations.TransactionsAreRelationsOfTheCore : Prop :=
  ∀ s : State, ∀ tr : Transaction,
    (∀ t, transact tr s = .done t →
      ∃ bs n, transactWith s.port.answer tr s.toCoreState = .done t.toCoreState bs
        ∧ t.port = s.port.delivered bs n ∧ (tr ≠ .step → bs = [] ∧ n = 0))
    ∧ (transact tr s = .waits → transactWith s.port.answer tr s.toCoreState = .waits)
    ∧ ∀ r, transact tr s = .refused r → transactWith s.port.answer tr s.toCoreState = .refused r

/-- R235: while a RUN is in progress every transaction and view waits, but for the STATUS read, which
returns RUNNING = 1. The form of waiting is the model's choice (notes/assumptions/9.md). -/
def Obligations.TransactionsWaitForRun : Prop :=
  ∀ s : State, ∀ tr : Transaction, ∀ n : Nat, ∀ a : Fin MEMORY_SIZE, s.status.running = true →
    transact tr s = .waits ∧ regView n s = none ∧ memView n a s = none
    ∧ (statusView s).getLsbD 5 = true

/-- R32, R56: the views of a machine between steps read its registers and its memory as they are. -/
def Obligations.ViewsReadTheState : Prop :=
  ∀ s : State, ∀ n : Nat, s.loaded = true → s.status.running = false →
    (∃ v, regView n s = some v ∧ ∀ r : Reg, v[r] = s.readReg r)
    ∧ ∀ a : Fin MEMORY_SIZE, memView n a s = some (s.mem.read a)

/-- R29, R200: the bits of STATUS, field by field, with the codes of outcomes and faults: the spec's
decisions D5 and D6 (notes/assumptions/11.md). -/
def Obligations.StatusBits : Prop :=
  ∀ st : Status,
    (statusWord st).extractLsb' 0 2 =
      (match st.outcome with | .noStep => 0 | .continued => 1 | .halted => 2 | .faulted => 3)
    ∧ (statusWord st).extractLsb' 2 3 =
      (match st.fault with
        | none => 0
        | some .memoryOverflow => 1
        | some .invalidRegister => 2
        | some .invalidInstruction => 3
        | some .invalidMemoryAccess => 4
        | some .outputError => 5)
    ∧ (statusWord st).getLsbD 5 = st.running
    ∧ (statusWord st).extractLsb' 6 26 = 0

/-- The model's own placing of a program (notes/assumptions/2.md): an instruction placed with
`withFetchWord` is what the next step runs. -/
def Obligations.FetchWordPlacesTheInstruction : Prop :=
  ∀ s : State, ∀ i : Instr, s.mem.wf = true → InRange s.ip.toNat (encode i).length →
    ∃ p, p = s.withFetchWord (8 * (encode i).length) (leValue (encode i))
      ∧ s.SameRegs p ∧ p.status = s.status
      ∧ step p = exec i (p.writeReg IP (p.ip + BitVec.ofNat 32 (encode i).length))

end
end

