-- ==== Sys2Proof/Laws/Decode.lean ====
section
/-! SUPPORT. The decoder: the legal opcodes by value, and that it accepts every string of a legal opcode's
length. -/

namespace Sys2Proof

theorem byte_eq_of_toNat {b : Byte} {n : Nat} (h : b.toNat = n) : b = BitVec.ofNat 8 n := by
  rw [← h, BitVec.ofNat_toNat, BitVec.setWidth_eq]

theorem list_of_length_one {α : Type} {l : List α} (h : l.length = 1) : ∃ a, l = [a] :=
  List.length_eq_one_iff.mp h

theorem list_of_length_two {α : Type} {l : List α} (h : l.length = 2) : ∃ a b, l = [a, b] :=
  List.length_eq_two.mp h

theorem list_of_length_three {α : Type} {l : List α} (h : l.length = 3) : ∃ a b c, l = [a, b, c] :=
  List.length_eq_three.mp h

/-- The legal opcodes and their lengths (R65). -/
theorem opcodeLength_cases {op : Byte} {len : Nat} (h : opcodeLength op = some len) :
    (op.toNat = 1 ∧ len = 4) ∨ (op.toNat = 2 ∧ len = 3) ∨ (op.toNat = 3 ∧ len = 3) ∨
    (op.toNat = 4 ∧ len = 4) ∨ (op.toNat = 5 ∧ len = 4) ∨ (op.toNat = 6 ∧ len = 2) ∨
    (op.toNat = 7 ∧ len = 1) ∨ (op.toNat = 8 ∧ len = 2) := by
  unfold opcodeLength at h
  split at h <;> simp_all

theorem opcodeLength_bounds {op : Byte} {len : Nat} (h : opcodeLength op = some len) :
    1 ≤ len ∧ len ≤ MAX_LENGTH := by
  have := opcodeLength_cases h
  simp only [MAX_LENGTH]
  omega

/-- A string of a legal opcode's length decodes, to the last byte: the dispatcher's operand fetch never
meets a decoder refusal. -/
theorem decode_of_opcodeLength {op : Byte} {rest : List Byte} {len : Nat}
    (h : opcodeLength op = some len) (hl : (op :: rest).length = len) :
    ∃ i, decode (op :: rest) = .ok (i, []) := by
  rw [List.length_cons] at hl
  obtain ⟨ho, rfl⟩ | ⟨ho, rfl⟩ | ⟨ho, rfl⟩ | ⟨ho, rfl⟩ | ⟨ho, rfl⟩ | ⟨ho, rfl⟩ | ⟨ho, rfl⟩ | ⟨ho, rfl⟩ :=
    opcodeLength_cases h
  · obtain ⟨a, b, c, rfl⟩ := list_of_length_three (l := rest) (by omega)
    exact ⟨.condMove a b c, by simp [decode, ho, decodeRRR]⟩
  · obtain ⟨a, b, rfl⟩ := list_of_length_two (l := rest) (by omega)
    exact ⟨.store a b, by simp [decode, ho, decodeRR]⟩
  · obtain ⟨a, b, rfl⟩ := list_of_length_two (l := rest) (by omega)
    exact ⟨.load a b, by simp [decode, ho, decodeRR]⟩
  · obtain ⟨a, b, c, rfl⟩ := list_of_length_three (l := rest) (by omega)
    exact ⟨.loadImmediate a (c ++ b), by simp [decode, ho, decodeRI]⟩
  · obtain ⟨a, b, c, rfl⟩ := list_of_length_three (l := rest) (by omega)
    exact ⟨.sub a b c, by simp [decode, ho, decodeRRR]⟩
  · obtain ⟨a, rfl⟩ := list_of_length_one (l := rest) (by omega)
    exact ⟨.outChar a, by simp [decode, ho, decodeR]⟩
  · obtain rfl := List.eq_nil_of_length_eq_zero (l := rest) (by omega)
    exact ⟨.halt, by simp [decode, ho]⟩
  · obtain ⟨a, rfl⟩ := list_of_length_one (l := rest) (by omega)
    exact ⟨.outInt a, by simp [decode, ho, decodeR]⟩

end Sys2Proof
end

