-- ==== Sys2Proof/Laws/Memory.lean ====
section
/-! SUPPORT. The memory operations: what a read sees after a write, and that every write keeps the
canonical form. -/

namespace Sys2Proof.Machine

theorem wfFrom_cons {lo k : Nat} {v : Byte} {m : Memory} :
    Memory.wfFrom lo ((k, v) :: m) = true ↔
      lo ≤ k ∧ k < MEMORY_SIZE ∧ v ≠ 0 ∧ Memory.wfFrom (k + 1) m = true := by
  simp [Memory.wfFrom, and_assoc]

theorem wfFrom_weaken {lo lo' : Nat} {m : Memory} (h : Memory.wfFrom lo m = true) (hl : lo' ≤ lo) :
    Memory.wfFrom lo' m = true := by
  cases m with
  | nil => rfl
  | cons c m =>
    rw [wfFrom_cons] at h ⊢
    exact ⟨hl.trans h.1, h.2⟩

/-- Below the lowest address a memory may list, every byte is the zero fill. -/
theorem read_below {lo a : Nat} {m : Memory} (h : Memory.wfFrom lo m = true) (ha : a < lo) :
    m.read a = 0 := by
  induction m generalizing lo with
  | nil => rfl
  | cons c m ih =>
    obtain ⟨hk, -, -, hm⟩ := wfFrom_cons.mp h
    have hne : a ≠ c.1 := by omega
    simp only [Memory.read, if_neg hne]
    exact ih hm (by omega)

theorem write_keeps_wfFrom {lo a : Nat} {b : Byte} {m : Memory} (h : Memory.wfFrom lo m = true)
    (hlo : lo ≤ a) (ha : a < MEMORY_SIZE) : Memory.wfFrom lo (m.write a b) = true := by
  induction m generalizing lo with
  | nil =>
    unfold Memory.write
    split
    · rfl
    · rename_i hb
      exact wfFrom_cons.mpr ⟨hlo, ha, hb, rfl⟩
  | cons c m ih =>
    obtain ⟨k, v⟩ := c
    obtain ⟨hk, hsz, hv, hm⟩ := wfFrom_cons.mp h
    unfold Memory.write
    split
    · split
      · exact h
      · rename_i hlt hb
        exact wfFrom_cons.mpr ⟨hlo, ha, hb, wfFrom_cons.mpr ⟨hlt, hsz, hv, hm⟩⟩
    · split
      · split
        · exact wfFrom_weaken hm (by omega)
        · rename_i hb
          subst_vars
          exact wfFrom_cons.mpr ⟨hlo, ha, hb, hm⟩
      · exact wfFrom_cons.mpr ⟨hk, hsz, hv, ih hm (by omega)⟩

/-- Writing a byte that exists keeps the canonical form. -/
theorem write_keeps_wf {a : Nat} {b : Byte} {m : Memory} (h : m.wf = true) (ha : a < MEMORY_SIZE) :
    (m.write a b).wf = true := write_keeps_wfFrom h (Nat.zero_le a) ha

theorem read_write_same_from {lo a : Nat} {b : Byte} {m : Memory} (h : Memory.wfFrom lo m = true) :
    (m.write a b).read a = b := by
  induction m generalizing lo with
  | nil =>
    unfold Memory.write
    split <;> simp_all [Memory.read]
  | cons c m ih =>
    obtain ⟨k, v⟩ := c
    obtain ⟨-, -, -, hm⟩ := wfFrom_cons.mp h
    unfold Memory.write
    split
    · split
      · rename_i hlt hb
        have hne : a ≠ k := by omega
        simpa [Memory.read, hne, hb] using read_below hm (by omega : a < k + 1)
      · simp [Memory.read]
    · split
      · split
        · rename_i hb
          rw [hb]
          exact read_below hm (by omega)
        · simp [Memory.read]
      · rename_i hne
        simpa [Memory.read, hne] using ih hm

/-- A read gives the byte written there. -/
theorem read_write_same {a : Nat} {b : Byte} {m : Memory} (h : m.wf = true) : (m.write a b).read a = b :=
  read_write_same_from h

/-- A write leaves every other address alone. -/
theorem read_write_other {a c : Nat} (b : Byte) (m : Memory) (hne : c ≠ a) :
    (m.write a b).read c = m.read c := by
  induction m with
  | nil =>
    unfold Memory.write
    split <;> simp [Memory.read, hne]
  | cons d m ih =>
    obtain ⟨k, v⟩ := d
    unfold Memory.write
    split
    · split <;> simp [Memory.read, hne]
    · split
      · subst_vars
        split <;> simp [Memory.read, hne]
      · simp [Memory.read, ih]

@[simp] theorem writeBytes_nil (m : Memory) (a : Nat) : m.writeBytes a [] = m := rfl

/-- Writing bytes that exist keeps the canonical form. -/
theorem writeBytes_keeps_wf {m : Memory} {a : Nat} {bs : List Byte} (h : m.wf = true)
    (ha : a + bs.length ≤ MEMORY_SIZE) : (m.writeBytes a bs).wf = true := by
  induction bs generalizing m a with
  | nil => exact h
  | cons b bs ih =>
    rw [List.length_cons] at ha
    exact ih (write_keeps_wf h (by omega)) (by omega)

/-- Bytes outside the span written are unchanged. -/
theorem read_writeBytes_outside {m : Memory} {a c : Nat} {bs : List Byte}
    (h : c < a ∨ a + bs.length ≤ c) : (m.writeBytes a bs).read c = m.read c := by
  induction bs generalizing m a with
  | nil => rfl
  | cons b bs ih =>
    rw [List.length_cons] at h
    rw [Memory.writeBytes, ih (by omega), read_write_other _ _ (by omega)]

/-- Bytes inside the span written are the ones written. -/
theorem read_writeBytes_inside {m : Memory} {a k : Nat} {bs : List Byte} (h : m.wf = true)
    (ha : a + bs.length ≤ MEMORY_SIZE) (hk : k < bs.length) :
    (m.writeBytes a bs).read (a + k) = bs[k] := by
  induction bs generalizing m a k with
  | nil => simp at hk
  | cons b bs ih =>
    rw [List.length_cons] at ha hk
    have hw : (m.write a b).wf = true := write_keeps_wf h (by omega)
    cases k with
    | zero =>
      rw [Memory.writeBytes, read_writeBytes_outside (by omega)]
      exact read_write_same h
    | succ k =>
      rw [Memory.writeBytes, List.getElem_cons_succ, show a + (k + 1) = a + 1 + k by omega]
      exact ih hw (by omega) (by omega)

@[simp] theorem length_readBytes (m : Memory) (a n : Nat) : (m.readBytes a n).length = n := by
  induction n generalizing a with
  | zero => rfl
  | succ n ih => simp [Memory.readBytes, ih]

theorem getElem_readBytes (m : Memory) (a n k : Nat) (hk : k < (m.readBytes a n).length) :
    (m.readBytes a n)[k] = m.read (a + k) := by
  induction n generalizing a k with
  | zero => simp [Memory.readBytes] at hk
  | succ n ih =>
    cases k with
    | zero => rfl
    | succ k =>
      simp only [Memory.readBytes, List.getElem_cons_succ]
      rw [ih]
      congr 1
      omega

@[simp] theorem length_leBytes (n w : Nat) : (leBytes n w).length = n := by
  induction n generalizing w with
  | zero => rfl
  | succ n ih => simp [leBytes, ih]

theorem leValue_leBytes (n w : Nat) : leValue (leBytes n w) = w % 256 ^ n := by
  induction n generalizing w with
  | zero => simp [leBytes, leValue, Nat.mod_one]
  | succ n ih =>
    have hp : (256 : Nat) ^ (n + 1) = 256 * 256 ^ n := by rw [Nat.pow_succ, Nat.mul_comm]
    rw [leBytes, leValue, ih, hp, Nat.mod_mul]
    simp

/-- The memory after reset has the canonical form. -/
theorem reset_mem_wf : State.reset.mem.wf = true := rfl

/-- A memory write keeps the canonical form. -/
theorem memWrite_keeps_wf {m : Memory} {a n v : Nat} (h : m.wf = true) (ha : InRange a n) :
    (m.memWrite a n v).wf = true :=
  writeBytes_keeps_wf h (by simpa using ha)

/-- A memory write leaves every byte outside its span alone. -/
theorem read_memWrite_outside {m : Memory} {a n v c : Nat} (h : c < a ∨ a + n ≤ c) :
    (m.memWrite a n v).read c = m.read c :=
  read_writeBytes_outside (by simpa using h)

end Sys2Proof.Machine
end

