-- ==== Sys2Proof/Laws/State.lean ====
section
/-! SUPPORT. What each update of State leaves in each field, and register reads after register writes. -/

namespace Sys2Proof.Machine

section Registers
variable (s : State) (r q : Reg) (v : Word)

@[simp] theorem writeReg_mem : (s.writeReg r v).mem = s.mem := rfl
@[simp] theorem writeReg_status : (s.writeReg r v).status = s.status := rfl
@[simp] theorem writeReg_loaded : (s.writeReg r v).loaded = s.loaded := rfl
@[simp] theorem writeReg_port : (s.writeReg r v).port = s.port := rfl

@[simp] theorem readReg_writeReg_same : (s.writeReg r v).readReg r = v := by
  simp [State.readReg, State.writeReg]

theorem readReg_writeReg_other (h : q ≠ r) : (s.writeReg r v).readReg q = s.readReg q := by
  have h' : r.val ≠ q.val := fun e => h (Fin.ext e.symm)
  simp [State.readReg, State.writeReg, Vector.getElem_set_ne _ _ h']

theorem ip_eq_readReg : s.ip = s.readReg IP := rfl

end Registers

section Memory
variable (s : State) (m : Memory)

@[simp] theorem withMem_mem : (s.withMem m).mem = m := rfl
@[simp] theorem withMem_regs : (s.withMem m).regs = s.regs := rfl
@[simp] theorem withMem_readReg (r : Reg) : (s.withMem m).readReg r = s.readReg r := rfl
@[simp] theorem withMem_status : (s.withMem m).status = s.status := rfl
@[simp] theorem withMem_loaded : (s.withMem m).loaded = s.loaded := rfl
@[simp] theorem withMem_port : (s.withMem m).port = s.port := rfl

end Memory

section Status
variable (s : State) (st : Status)

@[simp] theorem withStatus_status : (s.withStatus st).status = st := rfl
@[simp] theorem withStatus_regs : (s.withStatus st).regs = s.regs := rfl
@[simp] theorem withStatus_readReg (r : Reg) : (s.withStatus st).readReg r = s.readReg r := rfl
@[simp] theorem withStatus_mem : (s.withStatus st).mem = s.mem := rfl
@[simp] theorem withStatus_loaded : (s.withStatus st).loaded = s.loaded := rfl
@[simp] theorem withStatus_port : (s.withStatus st).port = s.port := rfl

end Status

section Port
variable (s : State) (p : Port) (bs : List Byte) (n : Nat)

@[simp] theorem withPort_core : (s.withPort p).toCoreState = s.toCoreState := rfl
@[simp] theorem withPort_port : (s.withPort p).port = p := rfl
@[simp] theorem withPort_regs : (s.withPort p).regs = s.regs := rfl
@[simp] theorem withPort_readReg (r : Reg) : (s.withPort p).readReg r = s.readReg r := rfl
@[simp] theorem withPort_mem : (s.withPort p).mem = s.mem := rfl
@[simp] theorem withPort_status : (s.withPort p).status = s.status := rfl
@[simp] theorem withPort_loaded : (s.withPort p).loaded = s.loaded := rfl
@[simp] theorem delivered_output : (p.delivered bs n).output = p.output ++ bs := rfl
@[simp] theorem delivered_answers : (p.delivered bs n).answers = p.answers.drop n := rfl
@[simp] theorem delivered_offers : (p.delivered bs n).offers = p.offers + n := rfl

end Port

/-! The ends of a step and the pre-advance, as the updates they are. -/

theorem finishContinue_eq (s : State) : finishContinue s = s.withStatus (statusContinued s.status) := rfl
theorem finishHalt_eq (s : State) : finishHalt s = s.withStatus statusHalted := rfl
theorem raise_eq (k : FaultKind) (s : State) : raise k s = s.withStatus (statusFaulted k) := rfl
theorem preAdvance_eq (n : Nat) (s : State) :
    preAdvance n s = s.writeReg IP (s.ip + BitVec.ofNat 32 n) := rfl

section Host
variable (accept : Nat → Bool) (c : CoreState)

@[simp] theorem withHost_core : (c.withHost accept).toCoreState = c := rfl
@[simp] theorem withHost_loaded : (c.withHost accept).loaded = c.loaded := rfl
@[simp] theorem withHost_status : (c.withHost accept).status = c.status := rfl
@[simp] theorem withHost_output : (c.withHost accept).port.output = [] := rfl

/-- The host answers the bytes of a step as `accept` says. -/
theorem withHost_answer {k : Nat} (h : k < MAX_TEXT) : (c.withHost accept).port.answer k = accept k := by
  simp [CoreState.withHost, Port.answer, h]

end Host

end Sys2Proof.Machine
end

