-- ==== Sys2Proof/Laws/Operations.lean ====
section
/-! SUPPORT. One lemma per shared operation: everything it can do. -/

namespace Sys2Proof.Machine

/-! ### The output port -/

theorem emit_accepted {b : Byte} {p : Port} (h : p.answer 0 = true) :
    emit b p = (true, p.delivered [b] 1) := by
  simp [emit, h, Port.delivered]

theorem emit_rejected {b : Byte} {p : Port} (h : p.answer 0 = false) :
    emit b p = (false, p.delivered [] 1) := by
  simp [emit, h, Port.delivered]

theorem answer_delivered (p : Port) (bs : List Byte) (n k : Nat) :
    (p.delivered bs n).answer k = p.answer (n + k) := by
  simp [Port.answer, Port.delivered, List.getElem?_drop, Nat.add_assoc]

theorem delivered_delivered (p : Port) (bs cs : List Byte) (n m : Nat) :
    (p.delivered bs n).delivered cs m = p.delivered (bs ++ cs) (n + m) := by
  simp [Port.delivered, List.drop_drop, Nat.add_assoc]

theorem delivered_nothing (p : Port) : p.delivered [] 0 = p := by
  simp [Port.delivered]

/-- When the host accepts the whole text, the port delivers it. -/
theorem emitAll_accepted {text : List Byte} {p : Port}
    (h : ∀ k, k < text.length → p.answer k = true) :
    emitAll text p = (true, p.delivered text text.length) := by
  induction text generalizing p with
  | nil => rw [List.length_nil, delivered_nothing]; rfl
  | cons b bs ih =>
    have h0 : p.answer 0 = true := h 0 (by simp)
    have hs : ∀ k, k < bs.length → (p.delivered [b] 1).answer k = true := fun k hk => by
      rw [answer_delivered, Nat.add_comm]
      exact h (k + 1) (by simpa using hk)
    simp [emitAll, emit_accepted h0, ih hs, delivered_delivered, Nat.add_comm]

/-- When the host rejects byte `q` of the text, the port has delivered the `q` bytes before it. -/
theorem emitAll_rejected {text : List Byte} {p : Port} {q : Nat}
    (h : ∀ k, k < q → p.answer k = true) (hr : p.answer q = false) (hq : q < text.length) :
    emitAll text p = (false, p.delivered (text.take q) (q + 1)) := by
  induction text generalizing p q with
  | nil => simp at hq
  | cons b bs ih =>
    cases q with
    | zero => simp [emitAll, emit_rejected hr]
    | succ q =>
      have h0 : p.answer 0 = true := h 0 (by omega)
      have hs : ∀ k, k < q → (p.delivered [b] 1).answer k = true := fun k hk => by
        rw [answer_delivered, Nat.add_comm]
        exact h (k + 1) (by omega)
      have hs' : (p.delivered [b] 1).answer q = false := by
        rw [answer_delivered, Nat.add_comm]
        exact hr
      have hlen : q < bs.length := by simpa using hq
      simp [emitAll, emit_accepted h0, ih hs hs' hlen, delivered_delivered, Nat.add_comm]

/-- The host accepts the next `n` bytes, or rejects one of them first. -/
theorem accepts_or_rejectsAt (s : State) (n : Nat) : s.Accepts n ∨ ∃ q, q < n ∧ s.RejectsAt q := by
  induction n with
  | zero => exact .inl fun k hk => by omega
  | succ n ih =>
    obtain h | ⟨q, hq, h⟩ := ih
    · cases hn : s.port.answer n with
      | true =>
        refine .inl fun k hk => ?_
        obtain hk | rfl : k < n ∨ k = n := by omega
        · exact h k hk
        · exact hn
      | false => exact .inr ⟨n, by omega, h, hn⟩
    · exact .inr ⟨q, by omega, h⟩

theorem emitThenFinish_accepted {text : List Byte} {s : State} (h : s.Accepts text.length) :
    emitThenFinish text s = finishContinue (s.withPort (s.port.delivered text text.length)) := by
  simp [emitThenFinish, emitAll_accepted h, finishContinue]

theorem emitThenFinish_rejected {text : List Byte} {s : State} {q : Nat} (h : s.RejectsAt q)
    (hq : q < text.length) : emitThenFinish text s =
      raise .outputError (s.withPort (s.port.delivered (text.take q) (q + 1))) := by
  simp [emitThenFinish, emitAll_rejected h.1 h.2 hq, raise]

/-- Sending a text ends in Continue with the text delivered, or in OutputError with a proper prefix. -/
theorem emitThenFinish_cases (text : List Byte) (s : State) :
    (s.Accepts text.length ∧ emitThenFinish text s =
      finishContinue (s.withPort (s.port.delivered text text.length))) ∨
    ∃ q, q < text.length ∧ s.RejectsAt q ∧ emitThenFinish text s =
      raise .outputError (s.withPort (s.port.delivered (text.take q) (q + 1))) := by
  obtain h | ⟨q, hq, h⟩ := accepts_or_rejectsAt s text.length
  · exact .inl ⟨h, emitThenFinish_accepted h⟩
  · exact .inr ⟨q, hq, h, emitThenFinish_rejected h hq⟩

/-! ### Register fields -/

theorem reg?_legal {f : RegField} (h : f.toNat < NUM_REGS) : reg? f = some ⟨f.toNat, h⟩ := dif_pos h

theorem reg?_eq_none {f : RegField} : reg? f = none ↔ NUM_REGS ≤ f.toNat := by
  simp [reg?]

theorem reg?_eq_some {f : RegField} {r : Reg} : reg? f = some r ↔ f.toNat = r.val := by
  constructor
  · intro h
    unfold reg? at h
    split at h
    · cases h; rfl
    · cases h
  · intro h
    rw [reg?_legal (h ▸ r.isLt)]
    exact congrArg some (Fin.ext h)

theorem legal_iff {f : RegField} : f.legal = true ↔ ∃ r, reg? f = some r := by
  rw [RegField.legal, decide_eq_true_iff]
  exact ⟨fun h => ⟨_, reg?_legal h⟩, fun ⟨r, h⟩ => reg?_eq_some.mp h ▸ r.isLt⟩

/-- The check of one field passes or raises InvalidRegister. -/
theorem withReg_cases (ri : RegField) (s : State) (body : Reg → State) :
    (∃ i, reg? ri = some i ∧ withReg ri s body = body i) ∨
    (reg? ri = none ∧ withReg ri s body = raise .invalidRegister s) := by
  unfold withReg
  cases reg? ri <;> simp

/-- The check of two fields passes or raises InvalidRegister. -/
theorem withRegs2_cases (ri rj : RegField) (s : State) (body : Reg → Reg → State) :
    (∃ i j, reg? ri = some i ∧ reg? rj = some j ∧ withRegs2 ri rj s body = body i j) ∨
    ((reg? ri = none ∨ reg? rj = none) ∧ withRegs2 ri rj s body = raise .invalidRegister s) := by
  unfold withRegs2
  cases reg? ri <;> cases reg? rj <;> simp

/-- The check of three fields passes or raises InvalidRegister. -/
theorem withRegs3_cases (ri rj rk : RegField) (s : State) (body : Reg → Reg → Reg → State) :
    (∃ i j k, reg? ri = some i ∧ reg? rj = some j ∧ reg? rk = some k ∧
      withRegs3 ri rj rk s body = body i j k) ∨
    ((reg? ri = none ∨ reg? rj = none ∨ reg? rk = none) ∧
      withRegs3 ri rj rk s body = raise .invalidRegister s) := by
  unfold withRegs3
  cases reg? ri <;> cases reg? rj <;> cases reg? rk <;> simp

/-! ### Programs and the host's ports -/

theorem placeAddress_le (n : Nat) (s : State) : placeAddress n s ≤ MEMORY_SIZE := by
  unfold placeAddress
  split
  · exact le_trans (Nat.le_add_right _ _) ‹_›
  · exact Nat.zero_le _

/-- Placing an instruction keeps the canonical form. -/
theorem placeInstruction_keeps_wf (n : Nat) (bs : List Byte) {s : State} (h : s.mem.wf = true) :
    (placeInstruction n bs s).mem.wf = true := by
  refine writeBytes_keeps_wf h ?_
  have := placeAddress_le n s
  rw [List.length_take]
  omega

/-- A step answers a host exactly as it ends, and never makes it wait. -/
theorem ofStep_eq_done {o : Host.Outcome State Fault Refusal} {t : State} :
    ofStep o = .done t ↔ o = .next t := by
  cases o with
  | next u => simp [ofStep]
  | fault f => exact nomatch f
  | refused r => simp [ofStep]

theorem ofStep_ne_waits (o : Host.Outcome State Fault Refusal) : ofStep o ≠ .waits := by
  cases o with
  | next u => nofun
  | fault f => exact nomatch f
  | refused r => nofun

/-- During a RUN a transaction waits (R235). -/
theorem transact_running {s : State} (tr : Transaction) (h : s.status.running = true) :
    transact tr s = .waits := by
  simp [transact, h]

/-- A machine runs, any core without one refuses (R231). -/
theorem onMachine_cases (s t : State) :
    (s.loaded = true ∧ onMachine s t = .done t) ∨
    (s.loaded = false ∧ onMachine s t = .refused .noMachine) := by
  unfold onMachine
  cases s.loaded <;> simp

/-- LOAD leaves a canonical memory, whatever the image and the state before. -/
theorem load_mem_wf (image : List Byte) (s : State) : (load image s).mem.wf = true := by
  unfold load
  split
  · exact writeBytes_keeps_wf rfl (by omega)
  · rfl

/-- SET_REG writes the one register its index names, or records InvalidRegister. -/
theorem setReg_cases (index value : Word) (s : State) :
    (∃ r : Reg, index.toNat = r.val ∧ setReg index value s = s.writeReg r value) ∨
    (NUM_REGS ≤ index.toNat ∧ setReg index value s = raise .invalidRegister s) := by
  unfold setReg
  split
  · exact .inl ⟨_, rfl, rfl⟩
  · exact .inr ⟨by omega, rfl⟩

end Sys2Proof.Machine
end

