-- ==== Sys2Proof/Laws/PerInstr.lean ====
section
/-! SUPPORT. Statements about every instruction as syntax, one lemma per constructor. -/

namespace Sys2Proof.Laws

/-- The encoding starts with a legal opcode byte, and that byte alone gives its length (R60, R66). -/
def EncodedLength.Statement (i : Instr) : Prop :=
  ∃ op rest, encode i = op :: rest ∧ opcodeLength op = some (encode i).length

theorem EncodedLength.condMove (ri rj rk : RegField) :
    EncodedLength.Statement (.condMove ri rj rk) := ⟨_, _, rfl, rfl⟩

theorem EncodedLength.store (ri rj : RegField) : EncodedLength.Statement (.store ri rj) :=
  ⟨_, _, rfl, rfl⟩

theorem EncodedLength.load (ri rj : RegField) : EncodedLength.Statement (.load ri rj) :=
  ⟨_, _, rfl, rfl⟩

theorem EncodedLength.loadImmediate (ri : RegField) (imm : Half) :
    EncodedLength.Statement (.loadImmediate ri imm) := ⟨_, _, rfl, rfl⟩

theorem EncodedLength.sub (ri rj rk : RegField) : EncodedLength.Statement (.sub ri rj rk) :=
  ⟨_, _, rfl, rfl⟩

theorem EncodedLength.outChar (ri : RegField) : EncodedLength.Statement (.outChar ri) :=
  ⟨_, _, rfl, rfl⟩

theorem EncodedLength.halt : EncodedLength.Statement .halt := ⟨_, _, rfl, rfl⟩

theorem EncodedLength.outInt (ri : RegField) : EncodedLength.Statement (.outInt ri) :=
  ⟨_, _, rfl, rfl⟩

end Sys2Proof.Laws
end

