-- ==== Sys2Proof/Laws/Step.lean ====
section
/-! SUPPORT. Said once: everything an instruction can do, and everything a step can do. -/

namespace Sys2Proof.Machine

/-- The ends an instruction can reach from the pre-advanced state `s` (R72, R87). -/
inductive Ends (i : Instr) (s : State) : State → Prop where
  /-- An illegal register field, or a data span out of range. -/
  | fault (k : FaultKind) (hk : k ≠ .memoryOverflow) : Ends i s (raise k s)
  /-- The write-back to the instruction's destination. -/
  | register (f : RegField) (r : Reg) (v : Word) (hd : i.destination = some f) (hf : reg? f = some r) :
      Ends i s (finishContinue (s.writeReg r v))
  /-- CondMove whose condition is zero. -/
  | nothing (h : ∃ ri rj rk, i = .condMove ri rj rk) : Ends i s (finishContinue s)
  /-- Store. -/
  | stored (ri rj : RegField) (hi : i = .store ri rj) (r q : Reg) (hr : reg? ri = some r)
      (hq : reg? rj = some q) (ha : InRange (dataAddress s r) 4) :
      Ends i s (finishContinue (s.withMem (s.mem.memWrite (dataAddress s r) 4 (s.readReg q).toNat)))
  /-- Halt. -/
  | halted (hi : i = .halt) : Ends i s (finishHalt s)
  /-- An output instruction whose text was accepted. -/
  | sent (text : List Byte) (hi : ∃ ri, i = .outChar ri ∨ i = .outInt ri) :
      Ends i s (finishContinue (s.withPort (s.port.delivered text text.length)))
  /-- An output instruction whose text was rejected at byte `p`. -/
  | rejected (text : List Byte) (p : Nat) (hi : ∃ ri, i = .outChar ri ∨ i = .outInt ri) :
      Ends i s (raise .outputError (s.withPort (s.port.delivered (text.take p) (p + 1))))

theorem emitThenFinish_ends {i : Instr} (text : List Byte) (s : State)
    (hi : ∃ ri, i = .outChar ri ∨ i = .outInt ri) : Ends i s (emitThenFinish text s) := by
  obtain ⟨-, h⟩ | ⟨p, -, -, h⟩ := emitThenFinish_cases text s
  · exact h ▸ .sent text hi
  · exact h ▸ .rejected text p hi

/-- Every instruction answers a next state, and that is one of its ends. -/
theorem exec_ends (i : Instr) (s : State) : ∃ t, exec i s = .next t ∧ Ends i s t := by
  refine match i with
  | .condMove ri rj rk => ⟨_, rfl, ?_⟩
  | .store ri rj => ⟨_, rfl, ?_⟩
  | .load ri rj => ⟨_, rfl, ?_⟩
  | .loadImmediate ri imm => ⟨_, rfl, ?_⟩
  | .sub ri rj rk => ⟨_, rfl, ?_⟩
  | .outChar ri => ⟨_, rfl, ?_⟩
  | .halt => ⟨_, rfl, .halted rfl⟩
  | .outInt ri => ⟨_, rfl, ?_⟩
  · obtain ⟨i, j, k, hi, -, -, h⟩ | ⟨-, h⟩ := withRegs3_cases ri rj rk s
      fun i j k => finishContinue (if s.readReg k ≠ 0 then s.writeReg i (s.readReg j) else s)
    · rw [h]
      split
      · exact .register ri i _ rfl hi
      · exact .nothing ⟨_, _, _, rfl⟩
    · exact h ▸ .fault _ nofun
  · obtain ⟨i, j, hi, hj, h⟩ | ⟨-, h⟩ := withRegs2_cases ri rj s fun i j =>
      if InRange (dataAddress s i) 4 then
        finishContinue (s.withMem (s.mem.memWrite (dataAddress s i) 4 (s.readReg j).toNat))
      else raise .invalidMemoryAccess s
    · rw [h]
      split
      · exact .stored ri rj rfl i j hi hj ‹_›
      · exact .fault _ nofun
    · exact h ▸ .fault _ nofun
  · obtain ⟨i, j, hi, -, h⟩ | ⟨-, h⟩ := withRegs2_cases ri rj s fun i j =>
      if InRange (dataAddress s j) 4 then
        finishContinue (s.writeReg i (BitVec.ofNat 32 (s.mem.memRead (dataAddress s j) 4)))
      else raise .invalidMemoryAccess s
    · rw [h]
      split
      · exact .register ri i _ rfl hi
      · exact .fault _ nofun
    · exact h ▸ .fault _ nofun
  · obtain ⟨i, hi, h⟩ | ⟨-, h⟩ := withReg_cases ri s
      fun i => finishContinue (s.writeReg i (sext32 imm))
    · exact h ▸ .register ri i _ rfl hi
    · exact h ▸ .fault _ nofun
  · obtain ⟨i, j, k, hi, -, -, h⟩ | ⟨-, h⟩ := withRegs3_cases ri rj rk s
      fun i j k => finishContinue (s.writeReg i (s.readReg j - s.readReg k))
    · exact h ▸ .register ri i _ rfl hi
    · exact h ▸ .fault _ nofun
  · obtain ⟨i, -, h⟩ | ⟨-, h⟩ := withReg_cases ri s
      fun i => emitThenFinish [(s.readReg i).setWidth 8] s
    · exact h ▸ emitThenFinish_ends _ s ⟨_, .inl rfl⟩
    · exact h ▸ .fault _ nofun
  · obtain ⟨i, -, h⟩ | ⟨-, h⟩ := withReg_cases ri s
      fun i => emitThenFinish (decText (s.readReg i)) s
    · exact h ▸ emitThenFinish_ends _ s ⟨_, .inr rfl⟩
    · exact h ▸ .fault _ nofun

/-- The operand fetch of a legal opcode faults on its span, or decodes (R84). -/
theorem fetchOperands_cases {a0 len : Nat} {s : State} (h : opcodeLength (s.mem.read a0) = some len) :
    (¬ InRange a0 len ∧ fetchOperands a0 len s = .faulted (raise .invalidMemoryAccess s)) ∨
    (InRange a0 len ∧ ∃ i, decode (s.mem.readBytes a0 len) = .ok (i, []) ∧
      fetchOperands a0 len s = .ready i s) := by
  by_cases hr : InRange a0 len
  · obtain ⟨n, rfl⟩ : ∃ n, len = n + 1 := ⟨len - 1, by have := opcodeLength_bounds h; omega⟩
    obtain ⟨i, hi⟩ := decode_of_opcodeLength (rest := s.mem.readBytes (a0 + 1) n) h (by simp)
    exact .inr ⟨hr, i, hi, by rw [fetchOperands, if_pos hr, Memory.readBytes, hi]⟩
  · exact .inl ⟨hr, if_neg hr⟩

/-- The phases of a step on a machine: where each ends, and with what (R80 to R84). -/
theorem step_cases {s : State} (h : s.loaded = true) :
    (¬ s.ip.toNat < MEMORY_SIZE ∧ step s = .next (raise .invalidMemoryAccess s)) ∨
    (s.ip.toNat < MEMORY_SIZE ∧ opcodeLength (s.mem.read s.ip.toNat) = none ∧
      step s = .next (raise .invalidInstruction s)) ∨
    (∃ len, s.ip.toNat < MEMORY_SIZE ∧ opcodeLength (s.mem.read s.ip.toNat) = some len ∧
      ¬ InRange s.ip.toNat len ∧ step s = .next (raise .invalidMemoryAccess (preAdvance len s))) ∨
    (∃ len i, s.ip.toNat < MEMORY_SIZE ∧ opcodeLength (s.mem.read s.ip.toNat) = some len ∧
      InRange s.ip.toNat len ∧ decode (s.mem.readBytes s.ip.toNat len) = .ok (i, []) ∧
      step s = exec i (preAdvance len s)) := by
  by_cases hip : s.ip.toNat < MEMORY_SIZE
  · cases hop : opcodeLength (s.mem.read s.ip.toNat) with
    | none => exact .inr (.inl ⟨hip, rfl, by simp [step, fetch, h, hip, fetchOpcode, hop]⟩)
    | some len =>
      obtain ⟨hr, hf⟩ | ⟨hr, i, hi, hf⟩ := fetchOperands_cases (s := preAdvance len s) hop
      · exact .inr (.inr (.inl ⟨len, hip, rfl, hr, by simp [step, fetch, h, hip, fetchOpcode, hop, hf]⟩))
      · exact .inr (.inr (.inr ⟨len, i, hip, rfl, hr, hi,
          by simp [step, fetch, h, hip, fetchOpcode, hop, hf]⟩))
  · exact .inl ⟨hip, by simp [step, fetch, h, hip]⟩

/-- Without a machine there is no step (R231). -/
theorem step_unloaded {s : State} (h : s.loaded = false) : step s = .refused .noMachine := by
  simp [step, fetch, h]

end Sys2Proof.Machine
end

