-- ==== Sys2Proof/Tests/Slice0.lean ====
section
/-! SUPPORT. The model's own tests. Expected values are the spec's (95_test_vectors.md, by vector id) or
hand calculation from its rules. The `witness_` theorems show that the hypotheses of each obligation of
that name are met, each clause at a boundary. -/

namespace Sys2Proof.Machine.Tests

/-- A machine at `a0` with the bytes `code` there, the registers listed, and the host's answers listed. -/
def machine (a0 : Nat) (code : List Byte) (regs : List (Reg × Word)) (answers : List Bool := []) : State :=
  regs.foldl (fun s p => s.writeReg p.1 p.2)
    { State.reset.writeReg IP (BitVec.ofNat 32 a0) with
      mem := Memory.writeBytes [] a0 code, port := ⟨[], answers, 0⟩ }

/-- The next state, or the power-on state where there is none. -/
def after : Host.Outcome State Fault Refusal → State
  | .next t => t
  | _ => State.powerOn

/-- The spec's column STATUS. -/
def statusAfter (s : State) : Word := statusWord (after (step s)).status

/-! ### Well-formedness: one ill-formed term per check -/

theorem test_wellFormed_refuses_each_illegal_field :
    (Instr.condMove 16 0 0).wellFormed = false ∧ (Instr.condMove 0 16 0).wellFormed = false
    ∧ (Instr.condMove 0 0 16).wellFormed = false
    ∧ (Instr.store 16 0).wellFormed = false ∧ (Instr.store 0 16).wellFormed = false
    ∧ (Instr.load 16 0).wellFormed = false ∧ (Instr.load 0 16).wellFormed = false
    ∧ (Instr.loadImmediate 255 0).wellFormed = false
    ∧ (Instr.sub 16 0 0).wellFormed = false ∧ (Instr.sub 0 16 0).wellFormed = false
    ∧ (Instr.sub 0 0 16).wellFormed = false
    ∧ (Instr.outChar 16).wellFormed = false ∧ (Instr.outInt 16).wellFormed = false := by decide

theorem test_wellFormed_accepts_the_highest_register :
    (Instr.condMove 15 15 15).wellFormed = true ∧ (Instr.loadImmediate 15 0xFFFF).wellFormed = true
    ∧ Instr.halt.wellFormed = true := by decide

/-! ### Decoding: each constructor's word, bit by bit from the table's encoding column -/

theorem test_decode_condMove :
    decodeTableWord 32 0b00000011000000100000000100000001 = some (.condMove 1 2 3) := by decide

theorem test_decode_store : decodeTableWord 24 0b000000100000000100000010 = some (.store 1 2) := by decide

theorem test_decode_load : decodeTableWord 24 0b000000100000000100000011 = some (.load 1 2) := by decide

theorem test_decode_loadImmediate :
    decodeTableWord 32 0b10000000000001010000000100000100 = some (.loadImmediate 1 0x8005) := by decide

theorem test_decode_sub :
    decodeTableWord 32 0b00000011000000100000000100000101 = some (.sub 1 2 3) := by decide

theorem test_decode_outChar : decodeTableWord 16 0b0000000100000110 = some (.outChar 1) := by decide

theorem test_decode_halt : decodeTableWord 8 0b00000111 = some .halt := by decide

theorem test_decode_outInt : decodeTableWord 16 0b0000000100001000 = some (.outInt 1) := by decide

/-- R67: opcodes 0, 9 and 255; R60: a string that ends early. -/
theorem test_decode_refuses_by_name :
    decode [0x00] = .error .illegalOpcode ∧ decode [0x09, 1, 2, 3] = .error .illegalOpcode
    ∧ decode [0xFF] = .error .illegalOpcode ∧ decode [0x01, 1, 2] = .error .missingBytes
    ∧ decode [] = .error .missingBytes := by decide

/-- The first step after reset runs each row's instruction, placed as its table word. -/
theorem test_reset_runs_each_row :
    statusAfter (State.reset.withFetchWord 32 0x01) = 0x01
    ∧ statusAfter (State.reset.withFetchWord 24 0x02) = 0x01
    ∧ statusAfter (State.reset.withFetchWord 24 0x03) = 0x01
    ∧ statusAfter (State.reset.withFetchWord 32 0x04) = 0x01
    ∧ statusAfter (State.reset.withFetchWord 32 0x05) = 0x01
    ∧ statusAfter (State.reset.withFetchWord 8 0x07) = 0x02
    ∧ (after (step (State.reset.withFetchWord 16 0x06))).ip = 2
    ∧ (after (step (State.reset.withFetchWord 16 0x08))).ip = 2 := by decide

/-! ### Step phases: vectors T1, T6, T9, T11 -/

theorem test_T1_ip_out_of_range :
    statusAfter (machine 4096 [] []) = 0x13 ∧ (after (step (machine 4096 [] []))).ip = 4096 := by decide

theorem test_T6_operands_past_the_end :
    statusAfter (machine 4093 [1, 1, 2] []) = 0x13
    ∧ (after (step (machine 4093 [1, 1, 2] []))).ip = 4097 := by decide

theorem test_T9_illegal_register :
    statusAfter (machine 0 [1, 0x10, 0, 0] []) = 0x0B
    ∧ (after (step (machine 0 [1, 0x10, 0, 0] []))).ip = 4 := by decide

theorem test_T11_operand_check_before_register_check :
    statusAfter (machine 4094 [2, 0xC8] []) = 0x13
    ∧ (after (step (machine 4094 [2, 0xC8] []))).ip = 4097 := by decide

/-! ### Instructions, at most two each -/

theorem test_C7_condition_read_before_the_write :
    (after (step (machine 0 [1, 5, 6, 5] [(5, 7)]))).readReg 5 = 0 := by decide

theorem test_C4_register_zero_reads_the_next_address :
    (after (step (machine 100 [1, 1, 0, 0] []))).readReg 1 = 104
    ∧ (after (step (machine 100 [1, 1, 0, 0] []))).ip = 104 := by decide

theorem test_S8_unaligned_store_is_little_endian :
    (after (step (machine 0 [2, 1, 2] [(1, 0x101), (2, 0xCAFEBABE)]))).mem.readBytes 0x101 4
      = [0xBE, 0xBA, 0xFE, 0xCA] := by decide

theorem test_S5_store_over_the_next_instruction :
    (after (step (machine 0 [2, 0, 2] [(2, 7)]))).mem.readBytes 3 4 = [7, 0, 0, 0]
    ∧ (after (step (machine 0 [2, 0, 2] [(2, 7)]))).ip = 3 := by decide

theorem test_D5_load_of_the_inline_constant :
    (after (step (machine 0 [3, 1, 0, 0xAA, 0xBB, 0xCC, 0xDD] []))).readReg 1 = 0xDDCCBBAA
    ∧ (after (step (machine 0 [3, 1, 0, 0xAA, 0xBB, 0xCC, 0xDD] []))).ip = 3 := by decide

theorem test_D3_load_past_the_end_writes_nothing :
    statusAfter (machine 0 [3, 1, 2] [(2, 4093), (1, 0x55)]) = 0x13
    ∧ (after (step (machine 0 [3, 1, 2] [(2, 4093), (1, 0x55)]))).readReg 1 = 0x55 := by decide

theorem test_L3_immediate_sign_extends :
    (after (step (machine 0 [4, 1, 0x00, 0x80] []))).readReg 1 = 0xFFFF8000 := by decide

theorem test_L7_jump_is_unchecked :
    (after (step (machine 0 [4, 0, 0xFF, 0xFF] []))).ip = 0xFFFFFFFF
    ∧ statusAfter (machine 0 [4, 0, 0xFF, 0xFF] []) = 0x01 := by decide

theorem test_B1_sub_wraps :
    (after (step (machine 0 [5, 1, 2, 3] [(3, 1)]))).readReg 1 = 0xFFFFFFFF := by decide

theorem test_B5_relative_jump :
    (after (step (machine 20 [5, 0, 0, 2] [(2, 8)]))).ip = 16 := by decide

theorem test_O2_outChar_sends_the_low_byte :
    (after (step (machine 0 [6, 1] [(1, 0x141)] [true]))).port.output = [0x41] := by decide

theorem test_O5_outChar_rejected :
    statusAfter (machine 0 [6, 1] [(1, 65)] [false]) = 0x17
    ∧ (after (step (machine 0 [6, 1] [(1, 65)] [false]))).port.output = [] := by decide

theorem test_H1_halt :
    statusAfter (machine 0 [7] []) = 0x02 ∧ (after (step (machine 0 [7] []))).ip = 1 := by decide

theorem test_I4_outInt_of_the_most_negative :
    (after (step (machine 0 [8, 1] [(1, 0x80000000)] (List.replicate 11 true)))).port.output
      = [0x2D, 0x32, 0x31, 0x34, 0x37, 0x34, 0x38, 0x33, 0x36, 0x34, 0x38] := by decide

theorem test_I7_outInt_rejected_at_the_third_byte :
    (after (step (machine 0 [8, 1] [(1, 0x80000000)] [true, true, false]))).port.output = [0x2D, 0x32]
    ∧ statusAfter (machine 0 [8, 1] [(1, 0x80000000)] [true, true, false]) = 0x17 := by decide

/-- The step relation on vector I7: the third answer is the first rejection. -/
theorem test_I7_as_the_step_relation :
    (match stepWith (fun k => k != 2) (machine 0 [8, 1] [(1, 0x80000000)]).toCoreState with
      | .done c bs => decide (bs = [0x2D, 0x32] ∧ statusWord c.status = 0x17)
      | _ => false) = true := by decide

/-! ### Host ports: vectors G1, R3 and the RUN of V-S2 -/

theorem test_G1_setReg_of_an_illegal_index :
    statusWord (setReg 16 5 State.reset).status = 0x0B := by decide

theorem test_R3_failed_load : statusWord (loadFails State.reset).status = 0x07 := by decide

theorem test_V_S2_run_completes :
    (match runFor 2 (loadImage [4, 1, 5, 0, 7] State.reset) with
      | .completed t => decide (t.readReg 1 = 5 ∧ t.ip = 5 ∧ statusWord t.status = 0x02)
      | _ => false) = true := by decide

/-! ### Witnesses: the hypotheses of the obligations -/

theorem witness_OpcodeMapIsComplete :
    ((0 : Byte).toNat = 0) ∧ 9 ≤ (9 : Byte).toNat ∧ 9 ≤ (255 : Byte).toNat := by decide

theorem witness_EncodeOfDecodeIsIdentity :
    decode [4, 1, 5, 0x80, 7] = .ok (.loadImmediate 1 0x8005, [7]) := by decide

theorem witness_StepRunsDecodedInstruction :
    (machine 4092 [5, 1, 2, 3] []).loaded = true
    ∧ InRange (machine 4092 [5, 1, 2, 3] []).ip.toNat 4
    ∧ decode ((machine 4092 [5, 1, 2, 3] []).mem.readBytes 4092 4) = .ok (.sub 1 2 3, []) := by decide

theorem witness_IpOutsideMemoryFaults :
    (machine 4096 [] []).loaded = true ∧ MEMORY_SIZE ≤ (machine 4096 [] []).ip.toNat
    ∧ MEMORY_SIZE ≤ (machine 0xFFFFFFFF [] []).ip.toNat := by decide

theorem witness_IllegalOpcodeFaults :
    (machine 4095 [9] []).loaded = true ∧ (machine 4095 [9] []).ip.toNat < MEMORY_SIZE
    ∧ 9 ≤ ((machine 4095 [9] []).mem.read 4095).toNat
    ∧ ((machine 0 [] []).mem.read 0).toNat = 0 := by decide

theorem witness_OperandBytesAreChecked :
    opcodeLength ((machine 4093 [1, 1, 2] []).mem.read 4093) = some 4 ∧ MEMORY_SIZE < 4093 + 4
    ∧ opcodeLength ((machine 4092 [1, 1, 2, 3] []).mem.read 4092) = some 4 ∧ 4092 + 4 ≤ MEMORY_SIZE
    ∧ (machine 4095 [7] []).mem.read 4095 = 7
    ∧ opcodeLength ((machine 4095 [7] []).mem.read (machine 4095 [7] []).ip.toNat) = some 1 := by decide

theorem witness_IllegalRegisterFieldFaults :
    NUM_REGS ≤ (16 : RegField).toNat ∧ NUM_REGS ≤ (255 : RegField).toNat
    ∧ ¬ NUM_REGS ≤ (15 : RegField).toNat := by decide

/-- One state per check of R202, in its order, and one where no check fails. -/
theorem witness_StepReportsFirstFailingCheck :
    (machine 0 [7] []).loaded = true
    ∧ firstFailingCheck (machine 4096 [] []) = some .invalidMemoryAccess
    ∧ firstFailingCheck (machine 0 [9] []) = some .invalidInstruction
    ∧ firstFailingCheck (machine 4094 [2, 0xC8] []) = some .invalidMemoryAccess
    ∧ firstFailingCheck (machine 0 [1, 1, 0x20, 3] []) = some .invalidRegister
    ∧ firstFailingCheck (machine 0 [2, 1, 2] [(1, 4093)]) = some .invalidMemoryAccess
    ∧ firstFailingCheck (machine 0 [2, 1, 2] [(1, 4092)]) = none
    ∧ firstFailingCheck (machine 0 [3, 1, 2] [(2, 0xFFFFFFFE)]) = some .invalidMemoryAccess
    ∧ firstFailingCheck (machine 0 [6, 1] [] [false]) = some .outputError
    ∧ firstFailingCheck (machine 0 [8, 1] [] [true]) = none
    ∧ firstFailingCheck (machine 0 [7] []) = none := by decide

theorem witness_FaultLeavesAllButIp :
    (∃ t, step (machine 4096 [] []) = .next t ∧ t.status.fault = some .invalidMemoryAccess)
    ∧ (∃ t, step (machine 0 [0] []) = .next t ∧ t.status.fault = some .invalidInstruction)
    ∧ ∃ t, step (machine 0 [8, 1] [(1, 12)] [true, false]) = .next t
      ∧ t.status.fault = some .outputError ∧ t.port.output = [0x31] :=
  ⟨⟨_, rfl, by decide⟩, ⟨_, rfl, by decide⟩, ⟨_, rfl, by decide⟩⟩

theorem witness_StatusDoesNotInfluenceSteps : ∃ t, step (machine 0 [7] []) = .next t := ⟨_, rfl⟩

theorem witness_OnlyStoreStepsChangeMemory :
    ∃ t, step (machine 0 [2, 1, 2] [(1, 4092), (2, 0xA1B2C3D4)]) = .next t
      ∧ t.mem.read 4095 ≠ (machine 0 [2, 1, 2] [(1, 4092), (2, 0xA1B2C3D4)]).mem.read 4095 :=
  ⟨_, rfl, by decide⟩

theorem witness_OnlyOutputStepsReachThePort :
    (∃ t, step (machine 0 [6, 1] [(1, 65)] [true]) = .next t ∧ t.port.output = [65])
    ∧ ∃ t, step (machine 0 [7] []) = .next t ∧ opcodeAt (machine 0 [7] []) = 7 :=
  ⟨⟨_, rfl, by decide⟩, ⟨_, rfl, by decide⟩⟩

/-- Register fields: CondMoveResult, SubResult and the others take any of 0 to 15. -/
theorem witness_CondMoveResult :
    reg? 0 = some 0 ∧ reg? 15 = some 15
    ∧ (machine 0 [] [(3, 1)]).readReg 3 ≠ 0 ∧ (machine 0 [] []).readReg 3 = 0 := by decide

theorem witness_LoadImmediateResult :
    reg? 15 = some 15 ∧ (0xFF00 : Half).toNat = (0x00 : Byte).toNat + 256 * (0xFF : Byte).toNat
    ∧ (0x7FFF : Half).toNat < 0x8000 ∧ ¬ (0x8000 : Half).toNat < 0x8000 := by decide

theorem witness_StoreResult :
    (machine 0 [2, 1, 2] [(1, 4092)]).mem.wf = true ∧ reg? 1 = some 1 ∧ reg? 2 = some 2
    ∧ ((machine 0 [2, 1, 2] [(1, 4092)]).readReg 1).toNat + 4 ≤ MEMORY_SIZE
    ∧ MEMORY_SIZE < ((machine 0 [2, 1, 2] [(1, 4093)]).readReg 1).toNat + 4
    ∧ MEMORY_SIZE < ((machine 0 [2, 1, 2] [(1, 0xFFFFFFFE)]).readReg 1).toNat + 4 := by decide

theorem witness_LoadResult :
    reg? 1 = some 1 ∧ reg? 2 = some 2
    ∧ 4092 = ((machine 0 [3, 1, 2] [(2, 4092)]).readReg 2).toNat ∧ 4092 + 4 ≤ MEMORY_SIZE
    ∧ 0xFFFFFFFF = ((machine 0 [3, 1, 2] [(2, 0xFFFFFFFF)]).readReg 2).toNat
    ∧ MEMORY_SIZE < 0xFFFFFFFF + 4 ∧ MEMORY_SIZE < 4093 + 4 := by decide

/-- The state after the Store is itself a state to Load from. -/
theorem witness_StoreThenLoadRoundTrips :
    ∃ t, (machine 0 [] [(1, 4092), (2, 0xCAFEBABE)]).mem.wf = true
      ∧ reg? 1 = some 1 ∧ reg? 2 = some 2 ∧ reg? 3 = some 3
      ∧ ((machine 0 [] [(1, 4092), (2, 0xCAFEBABE)]).readReg 1).toNat + 4 ≤ MEMORY_SIZE
      ∧ exec (.store 1 2) (machine 0 [] [(1, 4092), (2, 0xCAFEBABE)]) = .next t
      ∧ t.readReg 1 = (machine 0 [] [(1, 4092), (2, 0xCAFEBABE)]).readReg 1
      ∧ ∀ k, k < 4 → t.mem.read (4092 + k) = t.mem.read (4092 + k) :=
  ⟨_, by decide, rfl, rfl, rfl, by decide, rfl, by decide, fun _ _ => rfl⟩

theorem witness_SubResult : reg? 1 = some 1 ∧ reg? 2 = some 2 ∧ reg? 3 = some 3 := by decide

theorem witness_OutCharResult :
    reg? 1 = some 1 ∧ (machine 0 [] [] [true]).port.answer 0 = true
    ∧ (machine 0 [] [] [false]).port.answer 0 = false := by decide

/-- All eleven bytes accepted; rejected at the first byte, and at the last. -/
theorem witness_OutIntResult :
    reg? 1 = some 1 ∧ (decText 0x80000000).length = 11
    ∧ (machine 0 [] [(1, 0x80000000)]).readReg 1 = 0x80000000
    ∧ (machine 0 [] [(1, 0x80000000)] (List.replicate 11 true)).Accepts 11
    ∧ (machine 0 [] [(1, 0x80000000)] [false]).RejectsAt 0
    ∧ (machine 0 [] [(1, 0x80000000)] (List.replicate 10 true ++ [false])).RejectsAt 10 := by decide

theorem witness_HaltResult : (machine 4095 [7] []).CodeAt [7] := by decide

theorem witness_RegisterInstructionsFrame :
    (∃ t, exec (.condMove 1 2 3) State.reset = .next t) ∧ (∃ t, exec (.load 1 2) State.reset = .next t)
    ∧ (∃ t, exec (.loadImmediate 1 5) State.reset = .next t)
    ∧ ∃ t, exec (.sub 1 2 3) State.reset = .next t :=
  ⟨⟨_, rfl⟩, ⟨_, rfl⟩, ⟨_, rfl⟩, ⟨_, rfl⟩⟩

theorem witness_StoreFrame :
    (∃ t, exec (.store 1 2) (machine 0 [] [(1, 4092)]) = .next t ∧ t.status.outcome = .continued)
    ∧ (∃ t, exec (.store 1 2) (machine 0 [] [(1, 4093)]) = .next t ∧ t.status.outcome = .faulted)
    ∧ reg? 1 = some 1 :=
  ⟨⟨_, rfl, by decide⟩, ⟨_, rfl, by decide⟩, rfl⟩

theorem witness_OutputAndHaltFrame :
    (∃ t, exec (.outChar 1) (machine 0 [] [] [true]) = .next t)
    ∧ (∃ t, exec (.outInt 1) (machine 0 [] [] [false]) = .next t)
    ∧ ∃ t, exec .halt State.reset = .next t :=
  ⟨⟨_, rfl⟩, ⟨_, rfl⟩, ⟨_, rfl⟩⟩

/-- One state per row of R183; the jumps with `rj` and `rk` at 15 and, for the register values, 0 and not. -/
theorem witness_WritesToRegisterZeroJump :
    (machine 0 [4, 0, 0xFF, 0xFF] []).CodeAt [4, 0, 0xFF, 0xFF]
    ∧ (0xFFFF : Half).toNat = (0xFF : Byte).toNat + 256 * (0xFF : Byte).toNat
    ∧ (15 : Byte).toNat < NUM_REGS
    ∧ (machine 4092 [1, 0, 15, 14] [(14, 1)]).CodeAt [1, 0, 15, 14]
    ∧ operandValue (machine 4092 [1, 0, 15, 14] [(14, 1)]) 3 ≠ 0
    ∧ operandValue (machine 4092 [1, 0, 15, 14] []) 3 = 0
    ∧ (machine 0 [1, 0, 15, 0] []).CodeAt [1, 0, 15, 0]
    ∧ (machine 0 [3, 0, 15] [(15, 4092)]).CodeAt [3, 0, 15]
    ∧ (operandValue (machine 0 [3, 0, 15] [(15, 4092)]) 2).toNat + 4 ≤ MEMORY_SIZE
    ∧ (machine 0 [5, 0, 15, 14] []).CodeAt [5, 0, 15, 14]
    ∧ (machine 20 [5, 0, 0, 15] [(15, 8)]).CodeAt [5, 0, 0, 15] := by decide

theorem witness_MovGetIpClr :
    reg? 15 = some 15 ∧ (15 : Reg) ≠ IP ∧ (15 : RegField).toNat < NUM_REGS
    ∧ (machine 0 [1, 15, 15, 0] []).CodeAt [1, 15, 15, 0]
    ∧ (machine 4092 [1, 15, 0, 0] []).CodeAt [1, 15, 0, 0]
    ∧ (machine 0 [5, 15, 15, 15] []).CodeAt [5, 15, 15, 15] := by decide

/-- At the highest address where the four stored bytes exist; the new instruction is Halt. -/
theorem witness_NextFetchSeesTheStore :
    (machine 4089 [2, 0, 4] [(4, 7)]).mem.wf = true
    ∧ (machine 4089 [2, 0, 4] [(4, 7)]).CodeAt [2, 0, 4] ∧ InRange (4089 + 3) 4
    ∧ reg? 4 = some 4 ∧ (4 : Reg) ≠ IP
    ∧ encode .halt = (leBytes 4 ((machine 4089 [2, 0, 4] [(4, 7)]).readReg 4).toNat).take
        (encode .halt).length := by decide

theorem witness_StepKeepsInvariant :
    (machine 0 [2, 1, 2] [(1, 0x100), (2, 7)]).Inv
    ∧ ∃ t, step (machine 0 [2, 1, 2] [(1, 0x100), (2, 7)]) = .next t :=
  ⟨by decide, _, rfl⟩

theorem witness_TransactionsKeepInvariant :
    State.reset.Inv ∧ transact (.load [7]) State.reset = .done (loadImage [7] State.reset)
    ∧ (∃ t, transact .run State.reset = .done t)
    ∧ ∃ t, transact (.setReg 16 0) State.reset = .done t :=
  ⟨by decide, rfl, ⟨_, rfl⟩, ⟨_, rfl⟩⟩

theorem witness_CanonicalMemoriesAreExtensional :
    Memory.wf (Memory.writeBytes [] 4092 [1, 0, 2, 3]) = true
    ∧ Memory.writeBytes [] 4092 [1, 0, 2, 3] = [(4092, 1), (4094, 2), (4095, 3)] := by decide

theorem witness_LoadResetsTheCore :
    State.reset.status.running = false ∧ ([] : List Byte).length ≤ MEMORY_SIZE
    ∧ (List.replicate 4096 (0 : Byte)).length ≤ MEMORY_SIZE
    ∧ MEMORY_SIZE < (List.replicate 4097 (0 : Byte)).length := by
  rw [List.length_replicate, List.length_replicate]
  decide

theorem witness_BadFirstByteFaultsAtOnce :
    State.reset.status.running = false ∧ 9 ≤ ([9] : List Byte)[0].toNat
    ∧ ([0] : List Byte)[0].toNat = 0
    ∧ ∃ t, transact (.load [9]) State.reset = .done t :=
  ⟨rfl, by decide, by decide, _, rfl⟩

theorem witness_SetRegWritesOneRegister :
    State.reset.loaded = true ∧ State.reset.status.running = false
    ∧ (15 : Word).toNat < NUM_REGS ∧ NUM_REGS ≤ (16 : Word).toNat
    ∧ NUM_REGS ≤ (0xFFFFFFFF : Word).toNat := by decide

theorem witness_NoMachineRefuses :
    State.powerOn.loaded = false ∧ State.powerOn.status.running = false
    ∧ (loadFails State.reset).loaded = false := by decide

/-- A RUN that completes, one that faults and one that has not ended. -/
theorem witness_RunIsRepeatedSteps :
    (loadImage [7] State.reset).loaded = true
    ∧ (∃ t, runFor 1 (loadImage [7] State.reset) = .completed t)
    ∧ (∃ t, runFor 1 (loadImage [9] State.reset) = .error .invalidInstruction t)
    ∧ ∃ t, runFor 1 (loadImage [4, 0, 0, 0] State.reset) = .unfinished t :=
  ⟨by decide, ⟨_, rfl⟩, ⟨_, rfl⟩, ⟨_, rfl⟩⟩

/-- After a fault, so that OUTCOME and FAULT are not 0. -/
theorem witness_RunTransactionBegins :
    (setReg 16 5 State.reset).loaded = true ∧ (setReg 16 5 State.reset).status.running = false
    ∧ (setReg 16 5 State.reset).status = ⟨.faulted, some .invalidRegister, false⟩ := by decide

theorem witness_StepTransactionIsStep :
    State.reset.status.running = false ∧ (∃ t, step State.reset = .next t)
    ∧ ∃ t, transact .step State.reset = .done t :=
  ⟨rfl, ⟨_, rfl⟩, ⟨_, rfl⟩⟩

/-- A text delivered whole, one rejected at its last byte, and a core with and without a machine. -/
theorem witness_StepIsTheStepRelation :
    (∃ t, step (machine 0 [8, 1] [(1, 12)] [true, true]) = .next t ∧ t.port.output = [0x31, 0x32])
    ∧ (∃ t, step (machine 0 [8, 1] [(1, 12)] [true, false]) = .next t
      ∧ t.status.fault = some .outputError ∧ t.port.output = [0x31])
    ∧ State.reset.toCoreState.loaded = true ∧ State.powerOn.toCoreState.loaded = false :=
  ⟨⟨_, rfl, by decide⟩, ⟨_, rfl, by decide⟩, rfl, rfl⟩

/-- A transaction of each kind that takes effect, one that waits and one that is refused. -/
theorem witness_TransactionsAreRelationsOfTheCore :
    (∃ t, transact (.load [7]) State.powerOn = .done t) ∧ (∃ t, transact .step State.reset = .done t)
    ∧ (∃ t, transact .run State.reset = .done t) ∧ (∃ t, transact (.setReg 15 1) State.reset = .done t)
    ∧ transact .step (beginRun State.reset) = .waits
    ∧ transact .run State.powerOn = .refused .noMachine :=
  ⟨⟨_, rfl⟩, ⟨_, rfl⟩, ⟨_, rfl⟩, ⟨_, rfl⟩, rfl, rfl⟩

theorem witness_TransactionsWaitForRun : (beginRun State.reset).status.running = true := by decide

theorem witness_ViewsReadTheState :
    State.reset.loaded = true ∧ State.reset.status.running = false := by decide

theorem witness_FetchWordPlacesTheInstruction :
    (machine 4092 [] []).mem.wf = true ∧ InRange (machine 4092 [] []).ip.toNat (encode (.sub 1 2 3)).length
    ∧ InRange (machine 4095 [] []).ip.toNat (encode .halt).length := by decide

end Sys2Proof.Machine.Tests
end

namespace Sys2Proof.Machine

/-! ### The equation of each phase a step can end in (R81 to R84) -/

section Phases
variable {s : State} {len : Nat} (hl : s.loaded = true)
include hl

theorem step_of_ip_outside (hip : ¬ s.ip.toNat < MEMORY_SIZE) :
    step s = .next (raise .invalidMemoryAccess s) := by
  simp [step, fetch, hl, hip]

variable (hip : s.ip.toNat < MEMORY_SIZE)
include hip

theorem step_of_illegal_opcode (hop : opcodeLength (s.mem.read s.ip.toNat) = none) :
    step s = .next (raise .invalidInstruction s) := by
  simp [step, fetch, hl, hip, fetchOpcode, hop]

variable (hop : opcodeLength (s.mem.read s.ip.toNat) = some len)
include hop

theorem step_of_operands_outside (hr : ¬ InRange s.ip.toNat len) :
    step s = .next (raise .invalidMemoryAccess (preAdvance len s)) := by
  simp [step, fetch, hl, hip, fetchOpcode, hop, fetchOperands, hr]

theorem step_of_decode (hr : InRange s.ip.toNat len) {i : Instr}
    (hi : decode (s.mem.readBytes s.ip.toNat len) = .ok (i, [])) :
    step s = exec i (preAdvance len s) := by
  simp [step, fetch, hl, hip, fetchOpcode, hop, fetchOperands, hr, preAdvance_eq, hi]

end Phases

/-! ### What a step can do -/

/-- A step ends in a fault of the fetch phases, the pre-advance done or not, or in an end of the
instruction whose bytes lie at IP (R80 to R86). -/
theorem step_ends {s t : State} (h : step s = .next t) :
    (∃ k, k ≠ .memoryOverflow ∧ (t = raise k s ∨ ∃ len, t = raise k (preAdvance len s))) ∨
    ∃ len i, opcodeLength (s.mem.read s.ip.toNat) = some len ∧
      decode (s.mem.readBytes s.ip.toNat len) = .ok (i, []) ∧ Ends i (preAdvance len s) t := by
  cases hl : s.loaded with
  | false => simp [step_unloaded hl] at h
  | true =>
    obtain ⟨-, e⟩ | ⟨-, -, e⟩ | ⟨len, -, -, -, e⟩ | ⟨len, i, -, hop, -, hi, e⟩ := step_cases hl <;>
      rw [e] at h
    · cases h
      exact .inl ⟨.invalidMemoryAccess, nofun, .inl rfl⟩
    · cases h
      exact .inl ⟨.invalidInstruction, nofun, .inl rfl⟩
    · cases h
      exact .inl ⟨.invalidMemoryAccess, nofun, .inr ⟨len, rfl⟩⟩
    · obtain ⟨u, hu, he⟩ := exec_ends i (preAdvance len s)
      cases hu.symm.trans h
      exact .inr ⟨len, i, hop, hi, he⟩

/-- The ends of an instruction whose execution answers `t`. -/
theorem ends_of_exec {i : Instr} {s t : State} (h : exec i s = .next t) : Ends i s t := by
  obtain ⟨u, hu, he⟩ := exec_ends i s
  cases hu.symm.trans h
  exact he

/-- A machine always has a next step (R231). -/
theorem exists_step {s : State} (hl : s.loaded = true) : ∃ t, step s = .next t := by
  obtain ⟨-, e⟩ | ⟨-, -, e⟩ | ⟨_, -, -, -, e⟩ | ⟨len, i, -, -, -, -, e⟩ := step_cases hl
  · exact ⟨_, e⟩
  · exact ⟨_, e⟩
  · exact ⟨_, e⟩
  · obtain ⟨u, hu, -⟩ := exec_ends i (preAdvance len s)
    exact ⟨u, e.trans hu⟩

/-! ### Frames: what every end of an instruction leaves unchanged -/

/-- Only the register the destination field names changes (R24). -/
theorem Ends.readReg {i : Instr} {s t : State} (h : Ends i s t) {q : Reg}
    (hq : ∀ f, i.destination = some f → reg? f ≠ some q) : t.readReg q = s.readReg q := by
  cases h with
  | register f r v hd hf =>
    have hne : q ≠ r := fun e => hq f hd (e ▸ hf)
    exact readReg_writeReg_other s r q v hne
  | fault | nothing | stored | halted | sent | rejected => rfl

/-- A byte that changes lies in the span of a Store (R24, R120). -/
theorem Ends.mem_read {i : Instr} {s t : State} (h : Ends i s t) (a : Nat) :
    t.mem.read a = s.mem.read a ∨
    ∃ ri rj r, i = .store ri rj ∧ reg? ri = some r ∧
      (s.readReg r).toNat ≤ a ∧ a < (s.readReg r).toNat + 4 := by
  cases h with
  | stored ri rj hi r q hr hq ha =>
    by_cases hs : (s.readReg r).toNat ≤ a ∧ a < (s.readReg r).toNat + 4
    · exact .inr ⟨ri, rj, r, hi, hr, hs⟩
    · refine .inl (read_memWrite_outside ?_)
      simp only [dataAddress]
      omega
  | fault | register | nothing | halted | sent | rejected => exact .inl rfl

/-- An instruction that is no Store leaves every byte of memory. -/
theorem Ends.sameMem {i : Instr} {s t : State} (h : Ends i s t) (hi : ∀ ri rj, i ≠ .store ri rj) :
    s.SameMem t := fun a =>
  (h.mem_read a).resolve_right fun ⟨ri, rj, _, e, _⟩ => hi ri rj e

/-- No instruction takes the machine away. -/
theorem Ends.loaded {i : Instr} {s t : State} (h : Ends i s t) : t.loaded = s.loaded := by
  cases h <;> rfl

/-- Only OutChar and OutInt reach the host's side (R160). -/
theorem Ends.port {i : Instr} {s t : State} (h : Ends i s t)
    (hi : ∀ ri, i ≠ .outChar ri ∧ i ≠ .outInt ri) : t.port = s.port := by
  cases h with
  | sent text ho | rejected text p ho =>
    obtain ⟨ri, e | e⟩ := ho
    · exact absurd e (hi ri).1
    · exact absurd e (hi ri).2
  | fault | register | nothing | stored | halted => rfl

/-- STATUS says CONTINUE, or a fault that changed no register and no byte, or HALT after a Halt (R87, R203). -/
theorem Ends.status {i : Instr} {s t : State} (h : Ends i s t) :
    s.Continues t ∨ (∃ k, t.Faulted k ∧ s.SameRegs t ∧ s.SameMem t) ∨
    (i = .halt ∧ t.status = ⟨.halted, none, false⟩) := by
  cases h with
  | fault k | rejected => exact .inr (.inl ⟨_, rfl, fun _ => rfl, fun _ => rfl⟩)
  | register | nothing | stored | sent => exact .inl rfl
  | halted hi => exact .inr (.inr ⟨hi, rfl⟩)

/-- Settles O25: an instruction with a destination field is no Store, no output and no Halt. -/
theorem registerInstructionsFrame : Obligations.RegisterInstructionsFrame := by
  intro s t ri rj rk imm i hi h
  have he := ends_of_exec h
  have hd : i.destination = some ri := by obtain rfl | rfl | rfl | rfl := hi <;> rfl
  refine ⟨fun q hq => he.readReg ?_, he.sameMem ?_, ⟨he.port ?_, he.loaded⟩, ?_⟩
  · intro f hf
    cases hd.symm.trans hf
    exact hq
  · rintro a b rfl
    cases hd
  · intro r
    constructor <;> rintro rfl <;> cases hd
  · obtain hc | ⟨k, hk, hregs, -⟩ | ⟨rfl, -⟩ := he.status
    · exact .inl hc
    · exact .inr ⟨k, hk, hregs⟩
    · cases hd

/-- Settles O26: a Store has no destination field, and changes bytes in its span only. -/
theorem storeFrame : Obligations.StoreFrame := by
  intro s t ri rj h
  have he := ends_of_exec h
  refine ⟨fun q => he.readReg nofun, ⟨he.port fun _ => ⟨nofun, nofun⟩, he.loaded⟩, ?_, ?_⟩
  · intro r hr a ha
    obtain hsame | ⟨ri', rj', r', hi, hr', hlo, hhi⟩ := he.mem_read a
    · exact hsame
    · cases hi
      cases hr.symm.trans hr'
      omega
  · obtain hc | ⟨k, hk, -, hmem⟩ | ⟨hi, -⟩ := he.status
    · exact .inl hc
    · exact .inr ⟨k, hk, hmem⟩
    · cases hi

/-- Settles O27: OutChar, OutInt and Halt have no destination field and are no Store. -/
theorem outputAndHaltFrame : Obligations.OutputAndHaltFrame := by
  intro s t ri i hi h
  have he := ends_of_exec h
  have hd : i.destination = none := by obtain rfl | rfl | rfl := hi <;> rfl
  have hns : ∀ a b, i ≠ .store a b := by obtain rfl | rfl | rfl := hi <;> exact nofun
  refine ⟨fun q => he.readReg (by simp [hd]), he.sameMem hns, he.loaded, ?_, ?_⟩
  · rintro rfl
    exact ⟨he.port fun _ => ⟨nofun, nofun⟩, he.loaded⟩
  · obtain hc | ⟨k, hk, -, -⟩ | hh := he.status
    · exact .inl hc
    · exact .inr (.inl ⟨k, hk⟩)
    · exact .inr (.inr hh)

/-! ### The invariant -/

/-- A fault other than MemoryOverflow leaves a state of the invariant on any canonical memory. -/
theorem raise_inv {k : FaultKind} {s : State} (hk : k ≠ .memoryOverflow) (hm : s.mem.wf = true) :
    (raise k s).Inv :=
  ⟨hm, by simp [raise_eq, statusFaulted], fun e => absurd (Option.some.inj e) hk, nofun⟩

/-- CONTINUE keeps RUNNING, so it needs that a RUN is in progress only on a machine. -/
theorem finishContinue_inv {s : State} (hm : s.mem.wf = true)
    (hr : s.status.running = true → s.loaded = true) : (finishContinue s).Inv :=
  ⟨hm, by simp [finishContinue_eq, statusContinued], nofun, hr⟩

theorem finishHalt_inv {s : State} (hm : s.mem.wf = true) : (finishHalt s).Inv :=
  ⟨hm, by simp [finishHalt_eq, statusHalted], nofun, nofun⟩

/-- Every end of an instruction keeps the invariant. -/
theorem Ends.inv {i : Instr} {s t : State} (h : Ends i s t) (hs : s.Inv) : t.Inv := by
  obtain ⟨hm, -, -, hr⟩ := hs
  cases h with
  | fault k hk => exact raise_inv hk hm
  | register | nothing | sent => exact finishContinue_inv hm hr
  | stored ri rj hi r q hr' hq ha => exact finishContinue_inv (memWrite_keeps_wf hm ha) hr
  | halted => exact finishHalt_inv hm
  | rejected => exact raise_inv nofun hm

/-- Settles O32: the pre-advance writes a register only, which the invariant does not speak of, and each
end of the step keeps it. -/
theorem stepKeepsInvariant : Obligations.StepKeepsInvariant := by
  intro s t hs h
  obtain ⟨k, hk, rfl | ⟨len, rfl⟩⟩ | ⟨len, i, -, -, he⟩ := step_ends h
  · exact raise_inv hk hs.1
  · exact raise_inv hk hs.1
  · exact he.inv hs

/-- Settles O31, clause by clause on the fixed state. -/
theorem resetMeetsInvariant : Obligations.ResetMeetsInvariant :=
  ⟨reset_mem_wf, by decide, by decide, by decide⟩

/-! ### The host's transactions -/

section Transactions
variable {s : State}

theorem transact_load {image : List Byte} (hr : s.status.running = false) :
    transact (.load image) s = .done (load image s) := by
  simp [transact, hr]

theorem transact_step (hr : s.status.running = false) : transact .step s = ofStep (step s) := by
  simp [transact, hr]

theorem transact_run (hr : s.status.running = false) (hl : s.loaded = true) :
    transact .run s = .done (beginRun s) := by
  simp [transact, hr, onMachine, hl]

theorem transact_setReg {index value : Word} (hr : s.status.running = false) (hl : s.loaded = true) :
    transact (.setReg index value) s = .done (setReg index value s) := by
  simp [transact, hr, onMachine, hl]

/-- Without a machine the core refuses every transaction but LOAD (R231). -/
theorem transact_unloaded {tr : Transaction} (hr : s.status.running = false) (hl : s.loaded = false)
    (hne : ∀ image, tr ≠ .load image) : transact tr s = .refused .noMachine := by
  cases tr with
  | load image => exact absurd rfl (hne image)
  | step => rw [transact_step hr, step_unloaded hl, ofStep]
  | run | setReg => simp [transact, hr, onMachine, hl]

end Transactions

/-- What a transaction that takes effect makes of `s`. -/
inductive Effect (s : State) : Transaction → State → Prop where
  | load (image : List Byte) : Effect s (.load image) (load image s)
  | step {t : State} (h : step s = .next t) : Effect s .step t
  | run (hl : s.loaded = true) : Effect s .run (beginRun s)
  | setReg (index value : Word) (hl : s.loaded = true) :
      Effect s (.setReg index value) (setReg index value s)

/-- A transaction waits during a RUN, is refused without a machine, and takes effect otherwise; LOAD needs no
machine (R231, R235). -/
theorem transact_cases (tr : Transaction) (s : State) :
    (s.status.running = true ∧ transact tr s = .waits) ∨
    (s.status.running = false ∧ s.loaded = false ∧ (∀ image, tr ≠ .load image) ∧
      transact tr s = .refused .noMachine) ∨
    (s.status.running = false ∧ ∃ t, transact tr s = .done t ∧ Effect s tr t) := by
  cases hr : s.status.running with
  | true => exact .inl ⟨rfl, transact_running tr hr⟩
  | false =>
    cases hl : s.loaded with
    | false =>
      cases tr with
      | load image => exact .inr (.inr ⟨rfl, _, transact_load hr, .load image⟩)
      | step | run | setReg => exact .inr (.inl ⟨rfl, rfl, nofun, transact_unloaded hr hl nofun⟩)
    | true =>
      refine .inr (.inr ⟨rfl, ?_⟩)
      cases tr with
      | load image => exact ⟨_, transact_load hr, .load image⟩
      | step =>
        obtain ⟨t, ht⟩ := exists_step hl
        exact ⟨t, (transact_step hr).trans (ofStep_eq_done.mpr ht), .step ht⟩
      | run => exact ⟨_, transact_run hr hl, .run hl⟩
      | setReg index value => exact ⟨_, transact_setReg hr hl, .setReg index value hl⟩

theorem effect_of_done {tr : Transaction} {s t : State} (h : transact tr s = .done t) :
    s.status.running = false ∧ Effect s tr t := by
  obtain ⟨-, e⟩ | ⟨-, -, -, e⟩ | ⟨hr, u, e, he⟩ := transact_cases tr s <;> cases e.symm.trans h
  exact ⟨hr, he⟩

/-- LOAD meets the invariant from any state at all. -/
theorem load_inv (image : List Byte) (s : State) : (load image s).Inv := by
  refine ⟨load_mem_wf image s, ?_⟩
  unfold load
  split
  · exact ⟨by simp [loadImage, Status.reset], nofun, fun _ => rfl⟩
  · exact ⟨by simp [loadFails, statusFaulted], fun _ => rfl, nofun⟩

/-- Settles O33, by the transaction. -/
theorem transactionsKeepInvariant : Obligations.TransactionsKeepInvariant := by
  intro s t tr hs h
  obtain ⟨-, he⟩ := effect_of_done h
  cases he with
  | load image => exact load_inv image s
  | step hstep => exact stepKeepsInvariant s t hs hstep
  | run hl =>
    obtain ⟨hm, hf, ho, -⟩ := hs
    exact ⟨hm, hf, ho, fun _ => hl⟩
  | setReg index value hl =>
    obtain ⟨r, -, e⟩ | ⟨-, e⟩ := setReg_cases index value s
    · exact e ▸ hs
    · exact e ▸ raise_inv nofun hs.1

/-! ### What the bytes at IP say -/

theorem decodeR_eq_ok {mk : RegField → Instr} {bs rest : List Byte} {i : Instr}
    (h : decodeR mk bs = .ok (i, rest)) : ∃ ri, bs = ri :: rest ∧ i = mk ri := by
  unfold decodeR at h
  split at h
  · cases h
    exact ⟨_, rfl, rfl⟩
  · cases h

theorem decodeRR_eq_ok {mk : RegField → RegField → Instr} {bs rest : List Byte} {i : Instr}
    (h : decodeRR mk bs = .ok (i, rest)) : ∃ ri rj, bs = ri :: rj :: rest ∧ i = mk ri rj := by
  unfold decodeRR at h
  split at h
  · cases h
    exact ⟨_, _, rfl, rfl⟩
  · cases h

theorem decodeRRR_eq_ok {mk : RegField → RegField → RegField → Instr} {bs rest : List Byte} {i : Instr}
    (h : decodeRRR mk bs = .ok (i, rest)) :
    ∃ ri rj rk, bs = ri :: rj :: rk :: rest ∧ i = mk ri rj rk := by
  unfold decodeRRR at h
  split at h
  · cases h
    exact ⟨_, _, _, rfl, rfl⟩
  · cases h

theorem decodeRI_eq_ok {mk : RegField → Half → Instr} {bs rest : List Byte} {i : Instr}
    (h : decodeRI mk bs = .ok (i, rest)) :
    ∃ ri lo hi, bs = ri :: lo :: hi :: rest ∧ i = mk ri (hi ++ lo) := by
  unfold decodeRI at h
  split at h
  · cases h
    exact ⟨_, _, _, rfl, rfl⟩
  · cases h

/-- What decodes to a Store starts with opcode 2 and its two fields (R61, R65). -/
theorem decode_eq_store {bs rest : List Byte} {ri rj : RegField}
    (h : decode bs = .ok (.store ri rj, rest)) : ∃ op, bs = op :: ri :: rj :: rest ∧ op.toNat = 2 := by
  unfold decode at h
  split at h
  case h_1 => cases h
  case h_2 op operands =>
  split at h
  case h_2 hop =>
    obtain ⟨_, _, rfl, e⟩ := decodeRR_eq_ok h
    cases e
    exact ⟨op, rfl, hop⟩
  case h_1 => obtain ⟨_, _, _, -, e⟩ := decodeRRR_eq_ok h; cases e
  case h_3 => obtain ⟨_, _, -, e⟩ := decodeRR_eq_ok h; cases e
  case h_4 => obtain ⟨_, _, _, -, e⟩ := decodeRI_eq_ok h; cases e
  case h_5 => obtain ⟨_, _, _, -, e⟩ := decodeRRR_eq_ok h; cases e
  case h_6 => obtain ⟨_, -, e⟩ := decodeR_eq_ok h; cases e
  case h_7 => cases h
  case h_8 => obtain ⟨_, -, e⟩ := decodeR_eq_ok h; cases e
  case h_9 => cases h

/-- The table of R65 as `lengthAt` lists it. -/
theorem lengthAt_eq {s : State} {len : Nat} (h : opcodeLength (s.mem.read s.ip.toNat) = some len) :
    lengthAt s = len := by
  have hc := opcodeLength_cases h
  rw [← opcodeAt] at hc
  unfold lengthAt
  split_ifs <;> omega

/-- After the pre-advance register 0 reads `a0 + len`, and every other register as before (R83). -/
theorem readReg_preAdvance (len : Nat) (s : State) (r : Reg) :
    (preAdvance len s).readReg r = if r = IP then s.ip + BitVec.ofNat 32 len else s.readReg r := by
  split
  · subst r
    exact readReg_writeReg_same ..
  · exact readReg_writeReg_other _ _ _ _ ‹_›

/-- The value of a legal operand field is what the pre-advanced state holds in the register it names. -/
theorem operandValue_eq {s : State} {k : Nat} {r : Reg} (h : reg? (operandByte s k) = some r) :
    operandValue s k = (preAdvance (lengthAt s) s).readReg r := by
  have hr := reg?_eq_some.mp h
  rw [readReg_preAdvance, operandValue, hr]
  by_cases h0 : r = IP
  · simp [h0]
  · have hne : r.val ≠ 0 := fun e => h0 (Fin.ext e)
    simp [h0, hne, State.readReg, r.isLt]

/-- Settles O13: of all ends of a step only that of a Store has other bytes, in the Store's span. -/
theorem onlyStoreStepsChangeMemory : Obligations.OnlyStoreStepsChangeMemory := by
  intro s t a h hne
  obtain ⟨k, -, rfl | ⟨len, rfl⟩⟩ | ⟨len, i, hop, hdec, he⟩ := step_ends h
  · exact absurd rfl hne
  · exact absurd rfl hne
  · obtain hsame | ⟨ri, rj, r, rfl, hr, hspan⟩ := he.mem_read a
    · exact absurd hsame hne
    obtain ⟨op, hbs, hop2⟩ := decode_eq_store hdec
    obtain rfl : len = 3 := by simpa using congrArg List.length hbs
    simp only [Memory.readBytes, List.cons.injEq] at hbs
    obtain ⟨rfl, rfl, -⟩ := hbs
    have hval : operandValue s 1 = (preAdvance 3 s).readReg r := lengthAt_eq hop ▸ operandValue_eq hr
    exact ⟨hop2, hval ▸ hspan⟩

/-! ### Canonical memories -/

/-- A canonical memory reads non-zero at the first address it lists, so it cannot read like one that
lists nothing up to there. -/
theorem not_read_alike_of_head_below {lo lo' k : Nat} {v : Byte} {m n : Memory}
    (hm : Memory.wfFrom lo ((k, v) :: m) = true) (hn : Memory.wfFrom lo' n = true) (hk : k < lo') :
    ∃ a, a < MEMORY_SIZE ∧ Memory.read ((k, v) :: m) a ≠ n.read a := by
  obtain ⟨-, hsz, hv, -⟩ := wfFrom_cons.mp hm
  exact ⟨k, hsz, by simpa [Memory.read, read_below hn hk] using hv⟩

theorem eq_of_read_alike {lo : Nat} {m n : Memory} (hm : Memory.wfFrom lo m = true)
    (hn : Memory.wfFrom lo n = true) (h : ∀ a, a < MEMORY_SIZE → m.read a = n.read a) : m = n := by
  induction m generalizing lo n with
  | nil =>
    cases n with
    | nil => rfl
    | cons d n =>
      obtain ⟨a, ha, hne⟩ := not_read_alike_of_head_below (lo' := d.1 + 1) (n := []) hn rfl (by omega)
      exact absurd (h a ha).symm hne
  | cons c m ih =>
    cases n with
    | nil =>
      obtain ⟨a, ha, hne⟩ := not_read_alike_of_head_below (lo' := c.1 + 1) (n := []) hm rfl (by omega)
      exact absurd (h a ha) hne
    | cons d n =>
      obtain ⟨k, v⟩ := c
      obtain ⟨l, w⟩ := d
      obtain ⟨-, hksz, hv, hm'⟩ := wfFrom_cons.mp hm
      obtain ⟨-, hlsz, hw, hn'⟩ := wfFrom_cons.mp hn
      obtain hlt | rfl | hlt := lt_trichotomy k l
      · obtain ⟨a, ha, hne⟩ := not_read_alike_of_head_below hm
          (wfFrom_cons.mpr ⟨le_refl l, hlsz, hw, hn'⟩) hlt
        exact absurd (h a ha) hne
      · have hvw : v = w := by simpa [Memory.read] using h k hksz
        have htail : m = n := ih hm' hn' fun a ha => by
          by_cases hak : a = k
          · rw [read_below hm' (by omega), read_below hn' (by omega)]
          · simpa [Memory.read, hak] using h a ha
        rw [hvw, htail]
      · obtain ⟨a, ha, hne⟩ := not_read_alike_of_head_below hn
          (wfFrom_cons.mpr ⟨le_refl k, hksz, hv, hm'⟩) hlt
        exact absurd (h a ha).symm hne

/-- Settles O34: the canonical form from address 0. -/
theorem canonicalMemoriesAreExtensional : Obligations.CanonicalMemoriesAreExtensional :=
  fun _ _ hm hn h => eq_of_read_alike hm hn h

/-! ### Reset, SET_REG, the views and the STATUS word -/

/-- Settles O36: reset is the LOAD of the empty image by evaluation. -/
theorem resetState : Obligations.ResetState := by
  refine ⟨fun r => ?_, fun _ => rfl, by decide, rfl, rfl, rfl⟩
  simp [State.readReg, State.reset]

/-- Settles O38: the two cases of SET_REG, each with the frame of its update. -/
theorem setRegWritesOneRegister : Obligations.SetRegWritesOneRegister := by
  intro s index value hl hr
  refine ⟨fun h => ⟨_, transact_setReg hr hl, ?_⟩, fun h => ⟨_, transact_setReg hr hl, ?_⟩⟩
  · rw [setReg, dif_pos h]
    exact ⟨readReg_writeReg_same .., fun q hq => readReg_writeReg_other _ _ _ _ hq,
      fun _ => rfl, ⟨rfl, rfl⟩, rfl⟩
  · rw [setReg, dif_neg (not_lt.mpr h)]
    exact ⟨fun _ => rfl, fun _ => rfl, ⟨rfl, rfl⟩, rfl⟩

/-- Settles O42: the views' branch for a machine with no RUN in progress. -/
theorem viewsReadTheState : Obligations.ViewsReadTheState := by
  intro s n hl hr
  exact ⟨⟨s.regs, by simp [regView, hl, hr], fun _ => rfl⟩, fun a => by simp [memView, hl, hr]⟩

theorem StepOutcome.code_lt (o : StepOutcome) : o.code < 4 := by
  cases o <;> decide

theorem faultCode_lt (f : Option FaultKind) : faultCode f < 8 := by
  obtain _ | k := f
  · decide
  · cases k <;> decide

/-- STATUS as a number: OUTCOME, FAULT and RUNNING at their places (R29). -/
theorem toNat_statusWord (st : Status) :
    (statusWord st).toNat = st.outcome.code + 4 * faultCode st.fault + 32 * st.running.toNat := by
  have ho := st.outcome.code_lt
  have hf := faultCode_lt st.fault
  have hr := st.running.toNat_le
  rw [statusWord, BitVec.toNat_ofNat, Nat.mod_eq_of_lt (by omega)]

/-- A field of STATUS is its number where the places below and above it agree. -/
theorem statusWord_field {st : Status} {start len n : Nat}
    (h : (st.outcome.code + 4 * faultCode st.fault + 32 * st.running.toNat) / 2 ^ start % 2 ^ len = n) :
    (statusWord st).extractLsb' start len = BitVec.ofNat len n := by
  apply BitVec.eq_of_toNat_eq
  rw [BitVec.extractLsb'_toNat, toNat_statusWord, Nat.shiftRight_eq_div_pow, h, BitVec.toNat_ofNat, ← h,
    Nat.mod_mod]

/-- Settles O43: each field is cut out of the sum of `toNat_statusWord`. -/
theorem statusBits : Obligations.StatusBits := by
  intro st
  have ho := st.outcome.code_lt
  have hf := faultCode_lt st.fault
  have hr := st.running.toNat_le
  refine ⟨?_, ?_, ?_, statusWord_field (n := 0) (by omega)⟩
  · rw [statusWord_field (n := st.outcome.code) (by omega)]
    cases st.outcome <;> rfl
  · rw [statusWord_field (n := faultCode st.fault) (by omega)]
    obtain _ | k := st.fault
    · rfl
    · cases k <;> rfl
  · rw [BitVec.getLsbD, Nat.testBit_eq_decide_div_mod_eq, toNat_statusWord]
    cases st.running <;> simp <;> omega

/-! ### The host's side is an input and an output (R34)

`Transmits accept f` says of a state computed from a host's side that it uses that side as a port only: the
answers it reads are `accept`, and what it leaves there is the bytes it delivered. Proved once per shared
operation, it holds of every instruction and every step, and both host obligations are instances of it. -/

/-- How many bytes a step offered that delivered `bs` and ended in `t`: one more where it ended in OutputError. -/
def offeredBytes (bs : List Byte) (t : State) : Nat :=
  bs.length + if t.status.fault = some .outputError then 1 else 0

/-- Two hosts that agree on the answers to a step's bytes see the same core and the same bytes delivered. -/
def Transmits (accept : Nat → Bool) (f : Port → State) : Prop :=
  ∃ (t : State) (bs : List Byte), ∀ p : Port, (∀ k, k < MAX_TEXT → p.answer k = accept k) →
    f p = t.withPort (p.delivered bs (offeredBytes bs t))

/-- What offers nothing leaves the host's side as it is. -/
theorem transmits_nothing {accept : Nat → Bool} {f : Port → State} (t : State)
    (hf : ∀ p, f p = t.withPort p) (ht : t.status.fault ≠ some .outputError) : Transmits accept f :=
  ⟨t, [], fun p _ => by rw [hf, offeredBytes, if_neg ht, List.length_nil, delivered_nothing]⟩

theorem transmits_raise (accept : Nat → Bool) (k : FaultKind) (hk : k ≠ .outputError) (s : State) :
    Transmits accept fun p => raise k (s.withPort p) :=
  transmits_nothing (raise k s) (fun _ => rfl) fun e => hk (Option.some.inj e)

theorem transmits_illegalField (accept : Nat → Bool) (s : State) :
    Transmits accept fun p => raise .invalidRegister (s.withPort p) :=
  transmits_raise accept .invalidRegister nofun s

theorem transmits_finishContinue (accept : Nat → Bool) (s : State) :
    Transmits accept fun p => finishContinue (s.withPort p) :=
  transmits_nothing (finishContinue s) (fun _ => rfl) nofun

theorem transmits_ite {accept : Nat → Bool} (c : Prop) [Decidable c] {f g : Port → State}
    (hf : Transmits accept f) (hg : Transmits accept g) :
    Transmits accept fun p => if c then f p else g p := by
  by_cases hc : c
  · simpa only [if_pos hc] using hf
  · simpa only [if_neg hc] using hg

/-- A text no longer than the longest: what the host answers decides how much of it is delivered. -/
theorem transmits_emitThenFinish {text : List Byte} (h : text.length ≤ MAX_TEXT) (s : State) :
    Transmits s.port.answer fun p => emitThenFinish text (s.withPort p) := by
  obtain ha | ⟨q, hq, ha, hr⟩ := accepts_or_rejectsAt s text.length
  · refine ⟨finishContinue s, text, fun p hp => ?_⟩
    have hpa : (s.withPort p).Accepts text.length := fun k hk => (hp k (by omega)).trans (ha k hk)
    exact emitThenFinish_accepted hpa
  · refine ⟨raise .outputError s, text.take q, fun p hp => ?_⟩
    have hpr : (s.withPort p).RejectsAt q :=
      ⟨fun k hk => (hp k (by omega)).trans (ha k hk), (hp q (by omega)).trans hr⟩
    have hn : offeredBytes (text.take q) (raise .outputError s) = q + 1 := by
      simp [offeredBytes, raise_eq, statusFaulted, hq.le]
    rw [hn]
    exact emitThenFinish_rejected hpr hq

section Fields
variable {accept : Nat → Bool} (s : State) (ri rj rk : RegField)

theorem transmits_withReg {body : Reg → Port → State} (h : ∀ i, Transmits accept (body i)) :
    Transmits accept fun p => withReg ri (s.withPort p) fun i => body i p := by
  unfold withReg
  cases reg? ri with
  | none => exact transmits_illegalField accept s
  | some i => exact h i

theorem transmits_withRegs2 {body : Reg → Reg → Port → State} (h : ∀ i j, Transmits accept (body i j)) :
    Transmits accept fun p => withRegs2 ri rj (s.withPort p) fun i j => body i j p := by
  unfold withRegs2
  cases reg? ri <;> cases reg? rj
  case some.some i j => exact h i j
  all_goals exact transmits_illegalField accept s

theorem transmits_withRegs3 {body : Reg → Reg → Reg → Port → State}
    (h : ∀ i j k, Transmits accept (body i j k)) :
    Transmits accept fun p => withRegs3 ri rj rk (s.withPort p) fun i j k => body i j k p := by
  unfold withRegs3
  cases reg? ri <;> cases reg? rj <;> cases reg? rk
  case some.some.some i j k => exact h i j k
  all_goals exact transmits_illegalField accept s

end Fields

theorem length_decDigits_le (fuel n : Nat) (acc : List Byte) :
    (decDigits fuel n acc).length ≤ fuel + acc.length := by
  induction fuel generalizing n acc with
  | zero => simp [decDigits]
  | succ fuel ih =>
    unfold decDigits
    split
    · simp only [List.length_cons]
      omega
    · refine (ih _ _).trans ?_
      simp only [List.length_cons]
      omega

/-- The longest text is a sign and ten digits (R162). -/
theorem length_decText_le (w : Word) : (decText w).length ≤ MAX_TEXT := by
  have h := length_decDigits_le 10 w.toInt.natAbs []
  unfold decText
  split
  · exact Nat.succ_le_succ h
  · exact h.trans (by decide)

/-- Every instruction uses the host's side as a port only. -/
theorem exec_transmits (i : Instr) (s : State) :
    ∃ f, (∀ p, exec i (s.withPort p) = .next (f p)) ∧ Transmits s.port.answer f := by
  cases i with
  | condMove ri rj rk =>
    refine ⟨_, fun p => rfl, transmits_withRegs3 s ri rj rk fun i j k => ?_⟩
    simp only [apply_ite finishContinue]
    exact transmits_ite (s.readReg k ≠ 0) (transmits_finishContinue _ (s.writeReg i (s.readReg j)))
      (transmits_finishContinue _ s)
  | store ri rj =>
    refine ⟨_, fun p => rfl, transmits_withRegs2 s ri rj fun i j => ?_⟩
    exact transmits_ite (InRange (dataAddress s i) 4) (transmits_finishContinue _
      (s.withMem (s.mem.memWrite (dataAddress s i) 4 (s.readReg j).toNat)))
      (transmits_raise _ .invalidMemoryAccess nofun s)
  | load ri rj =>
    refine ⟨_, fun p => rfl, transmits_withRegs2 s ri rj fun i j => ?_⟩
    exact transmits_ite (InRange (dataAddress s j) 4)
      (transmits_finishContinue _ (s.writeReg i (BitVec.ofNat 32 (s.mem.memRead (dataAddress s j) 4))))
      (transmits_raise _ .invalidMemoryAccess nofun s)
  | loadImmediate ri imm =>
    exact ⟨_, fun p => rfl, transmits_withReg s ri fun i =>
      transmits_finishContinue _ (s.writeReg i (sext32 imm))⟩
  | sub ri rj rk =>
    exact ⟨_, fun p => rfl, transmits_withRegs3 s ri rj rk fun i j k =>
      transmits_finishContinue _ (s.writeReg i (s.readReg j - s.readReg k))⟩
  | outChar ri =>
    exact ⟨_, fun p => rfl, transmits_withReg s ri fun i =>
      transmits_emitThenFinish (text := [(s.readReg i).setWidth 8]) (by simp) s⟩
  | halt => exact ⟨_, fun p => rfl, transmits_nothing (finishHalt s) (fun _ => rfl) nofun⟩
  | outInt ri =>
    exact ⟨_, fun p => rfl, transmits_withReg s ri fun i =>
      transmits_emitThenFinish (length_decText_le (s.readReg i)) s⟩

/-- Every step of a machine answers, and uses the host's side as a port only: the phases before the
instruction do not look at it. -/
theorem step_transmits {s : State} (hl : s.loaded = true) :
    ∃ f, (∀ p, step (s.withPort p) = .next (f p)) ∧ Transmits s.port.answer f := by
  obtain ⟨hip, -⟩ | ⟨hip, hop, -⟩ | ⟨len, hip, hop, hr, -⟩ | ⟨len, i, hip, hop, hr, hi, -⟩ := step_cases hl
  · exact ⟨_, fun p => step_of_ip_outside (s := s.withPort p) hl hip,
      transmits_raise _ .invalidMemoryAccess nofun s⟩
  · exact ⟨_, fun p => step_of_illegal_opcode (s := s.withPort p) hl hip hop,
      transmits_raise _ .invalidInstruction nofun s⟩
  · exact ⟨_, fun p => step_of_operands_outside (s := s.withPort p) hl hip hop hr,
      transmits_raise _ .invalidMemoryAccess nofun (preAdvance len s)⟩
  · obtain ⟨f, hf, ht⟩ := exec_transmits i (preAdvance len s)
    exact ⟨f, fun p => (step_of_decode (s := s.withPort p) hl hip hop hr hi).trans (hf p), ht⟩

/-- The core with a host that answers as `s`'s does is `s` up to the rest of the host's side. -/
theorem withHost_eq_withPort (accept : Nat → Bool) (s : State) :
    s.toCoreState.withHost accept = s.withPort (s.toCoreState.withHost accept).port := rfl

/-- A step of `s` is the step relation on its core and its host's answers, and its port records exactly what
the relation says was delivered. -/
theorem stepWith_of_step {s t : State} (h : step s = .next t) :
    ∃ bs, stepWith s.port.answer s.toCoreState = .done t.toCoreState bs ∧
      t.port = s.port.delivered bs (offeredBytes bs t) := by
  cases hl : s.loaded with
  | false => simp [step_unloaded hl] at h
  | true =>
    obtain ⟨f, hf, u, bs, hu⟩ := step_transmits hl
    have ht : t = u.withPort (s.port.delivered bs (offeredBytes bs u)) := by
      rw [← hu s.port fun _ _ => rfl]
      exact (Host.Outcome.next.inj ((hf s.port).symm.trans h)).symm
    subst ht
    refine ⟨bs, ?_, rfl⟩
    rw [stepWith, withHost_eq_withPort, hf, hu _ fun k hk => withHost_answer _ _ hk]
    simp [ofStep, ofHost]

/-- Settles O47: a machine always has a next step, and a core without one refuses. -/
theorem stepIsTheStepRelation : Obligations.StepIsTheStepRelation := by
  refine ⟨fun s t h => stepWith_of_step h, fun accept c hl => ?_, fun accept c hl => ?_⟩
  · obtain ⟨t, h⟩ := exists_step (s := c.withHost accept) hl
    exact ⟨_, _, by rw [stepWith, h]; rfl⟩
  · rw [stepWith, step_unloaded hl]
    rfl

/-- A transaction that leaves the host's side alone does so for every host. -/
theorem transactWith_of_withPort {tr : Transaction} {s t : State} (accept : Nat → Bool)
    (hp : t.port = s.port) (h : ∀ p, transact tr (s.withPort p) = .done (t.withPort p)) :
    ∃ bs n, transactWith accept tr s.toCoreState = .done t.toCoreState bs ∧
      t.port = s.port.delivered bs n ∧ (tr ≠ .step → bs = [] ∧ n = 0) :=
  ⟨[], 0, by rw [transactWith, withHost_eq_withPort, h]; rfl, by rw [hp, delivered_nothing],
    fun _ => ⟨rfl, rfl⟩⟩

theorem load_withPort (image : List Byte) (s : State) (p : Port) :
    load image (s.withPort p) = (load image s).withPort p := by
  unfold load
  split <;> rfl

theorem load_port (image : List Byte) (s : State) : (load image s).port = s.port := by
  unfold load
  split <;> rfl

theorem setReg_withPort (index value : Word) (s : State) (p : Port) :
    setReg index value (s.withPort p) = (setReg index value s).withPort p := by
  unfold setReg
  split <;> rfl

theorem setReg_port (index value : Word) (s : State) : (setReg index value s).port = s.port := by
  obtain ⟨r, -, e⟩ | ⟨-, e⟩ := setReg_cases index value s <;> rw [e] <;> rfl

/-- What a transaction makes of the core and delivers, where it takes effect. -/
theorem transactWith_of_done {tr : Transaction} {s t : State} (h : transact tr s = .done t) :
    ∃ bs n, transactWith s.port.answer tr s.toCoreState = .done t.toCoreState bs ∧
      t.port = s.port.delivered bs n ∧ (tr ≠ .step → bs = [] ∧ n = 0) := by
  obtain ⟨hr, he⟩ := effect_of_done h
  cases he with
  | load image =>
    exact transactWith_of_withPort _ (load_port image s) fun p =>
      (transact_load (s := s.withPort p) hr).trans (congrArg _ (load_withPort image s p))
  | step hs =>
    obtain ⟨bs, hw, hp⟩ := stepWith_of_step hs
    refine ⟨bs, _, ?_, hp, fun hne => absurd rfl hne⟩
    rw [transactWith, transact_step (s := s.toCoreState.withHost _) hr]
    exact hw
  | run hl => exact transactWith_of_withPort _ rfl fun p => transact_run (s := s.withPort p) hr hl
  | setReg index value hl =>
    exact transactWith_of_withPort _ (setReg_port index value s) fun p =>
      (transact_setReg (s := s.withPort p) hr hl).trans (congrArg _ (setReg_withPort index value s p))

/-- Settles O48: whether a transaction waits or is refused is decided by the core alone. -/
theorem transactionsAreRelationsOfTheCore : Obligations.TransactionsAreRelationsOfTheCore := by
  intro s tr
  refine ⟨fun t h => transactWith_of_done h, fun h => ?_, fun r h => ?_⟩ <;>
    obtain ⟨hr, e⟩ | ⟨hr, hl, hne, e⟩ | ⟨-, t, e, -⟩ := transact_cases tr s <;> cases e.symm.trans h
  · rw [transactWith, transact_running (s := s.toCoreState.withHost _) tr hr]
    rfl
  · rw [transactWith, transact_unloaded (s := s.toCoreState.withHost _) hr hl hne]
    rfl

end Sys2Proof.Machine

namespace Sys2Proof.Machine

/-! ### Decoding and encoding are inverse (R61, R65, R68) -/

/-- The immediate is its high byte above its low byte (R63). -/
theorem imm_halves (imm : Half) : imm.extractLsb' 8 8 ++ imm.extractLsb' 0 8 = imm :=
  (BitVec.extractLsb'_append_extractLsb'_eq_extractLsb' (rfl : 8 = 0 + 8)).trans
    BitVec.extractLsb'_eq_self

theorem halves_append (hi lo : Byte) :
    (hi ++ lo).extractLsb' 0 8 = lo ∧ (hi ++ lo).extractLsb' 8 8 = hi :=
  ⟨BitVec.extractLsb'_append_eq_right, BitVec.extractLsb'_append_eq_left⟩

/-- The two immediate bytes as a number, the low byte first (R63). -/
theorem append_eq_ofNat (hi lo : Byte) : hi ++ lo = BitVec.ofNat 16 (lo.toNat + 256 * hi.toNat) := by
  apply BitVec.eq_of_toNat_eq
  have hlo := lo.isLt
  rw [BitVec.toNat_append, ← Nat.shiftLeft_add_eq_or_of_lt hlo, BitVec.toNat_ofNat, Nat.shiftLeft_eq]
  omega

/-- Settles O2, by the instruction; only the immediate is taken apart and put together again. -/
theorem decodeOfEncodeIsIdentity : Obligations.DecodeOfEncodeIsIdentity := by
  intro i rest
  cases i with
  | loadImmediate ri imm =>
    show Except.ok (Instr.loadImmediate ri (imm.extractLsb' 8 8 ++ imm.extractLsb' 0 8), rest) = _
    rw [imm_halves]
  | condMove | store | load | sub | outChar | halt | outInt => rfl

/-- Settles O3, by the branch of the opcode map that accepts the string. -/
theorem encodeOfDecodeIsIdentity : Obligations.EncodeOfDecodeIsIdentity := by
  intro bs rest i h
  unfold decode at h
  split at h
  case h_1 => cases h
  case h_2 op operands =>
  split at h
  case h_9 => cases h
  all_goals obtain rfl := byte_eq_of_toNat ‹op.toNat = _›
  case h_1 | h_5 => obtain ⟨_, _, _, rfl, rfl⟩ := decodeRRR_eq_ok h; rfl
  case h_2 | h_3 => obtain ⟨_, _, rfl, rfl⟩ := decodeRR_eq_ok h; rfl
  case h_4 =>
    obtain ⟨ri, lo, hi, rfl, rfl⟩ := decodeRI_eq_ok h
    obtain ⟨hlo, hhi⟩ := halves_append hi lo
    simp [encode, hlo, hhi]
  case h_6 | h_8 => obtain ⟨_, rfl, rfl⟩ := decodeR_eq_ok h; rfl
  case h_7 => cases h; rfl

/-- No opcode byte outside 1 to 8 is legal (R67). -/
theorem opcodeLength_illegal {op : Byte} (h : op.toNat = 0 ∨ 9 ≤ op.toNat) : opcodeLength op = none := by
  unfold opcodeLength
  split
  case h_9 => rfl
  all_goals omega

theorem decode_illegal {op : Byte} (h : op.toNat = 0 ∨ 9 ≤ op.toNat) (rest : List Byte) :
    decode (op :: rest) = .error .illegalOpcode := by
  unfold decode
  dsimp only
  split
  case h_9 => rfl
  all_goals omega

/-- Settles O1: a legal opcode byte by evaluating its row, any other by excluding every row. -/
theorem opcodeMapIsComplete : Obligations.OpcodeMapIsComplete := by
  refine ⟨fun ri rj rk lo hi rest => ⟨rfl, rfl, rfl, ?_, rfl, rfl, rfl, rfl⟩,
    rfl, rfl, rfl, rfl, rfl, rfl, rfl, rfl, fun op rest h => ⟨opcodeLength_illegal h, decode_illegal h rest⟩⟩
  rw [← append_eq_ofNat]
  rfl

/-- Settles O4, by evaluating the decoder on the nine words. -/
theorem specVectorsDecode : Obligations.SpecVectorsDecode :=
  ⟨rfl, rfl, rfl, rfl, rfl, rfl, rfl, rfl, rfl⟩

/-- The opcode byte gives the length of every encoding (R60, R66). -/
theorem encodedLength : (i : Instr) → Laws.EncodedLength.Statement i
  | .condMove .. => Laws.EncodedLength.condMove ..
  | .store .. => Laws.EncodedLength.store ..
  | .load .. => Laws.EncodedLength.load ..
  | .loadImmediate .. => Laws.EncodedLength.loadImmediate ..
  | .sub .. => Laws.EncodedLength.sub ..
  | .outChar _ => Laws.EncodedLength.outChar _
  | .halt => Laws.EncodedLength.halt
  | .outInt _ => Laws.EncodedLength.outInt _

theorem length_encode_le (i : Instr) : (encode i).length ≤ MAX_LENGTH := by
  obtain ⟨op, rest, -, h⟩ := encodedLength i
  exact (opcodeLength_bounds h).2

/-! ### The phases of a step -/

/-- With an instruction's bytes at IP, the step is that instruction on the pre-advanced state (R80 to R86). -/
theorem step_of_codeAt {s : State} {i : Instr} (h : s.CodeAt (encode i)) :
    step s = exec i (preAdvance (encode i).length s) := by
  obtain ⟨hl, hr, hbytes⟩ := h
  obtain ⟨op, rest, he, hop⟩ := encodedLength i
  have hread : s.mem.read s.ip.toNat = op := by
    rw [he, List.length_cons, Memory.readBytes, List.cons.injEq] at hbytes
    exact hbytes.1
  have hlen := (opcodeLength_bounds hop).1
  have hdec : decode (encode i) = .ok (i, []) := by simpa using decodeOfEncodeIsIdentity i []
  exact step_of_decode hl (by simp only [InRange] at hr; omega) (hread ▸ hop) hr (hbytes.symm ▸ hdec)

/-- Bytes in memory that decode to the last one are the instruction's code. -/
theorem codeAt_of_decode {s : State} {n : Nat} {i : Instr} (hl : s.loaded = true)
    (hr : InRange s.ip.toNat n) (h : decode (s.mem.readBytes s.ip.toNat n) = .ok (i, [])) :
    (encode i).length = n ∧ s.CodeAt (encode i) := by
  have hbytes : s.mem.readBytes s.ip.toNat n = encode i := by
    simpa using encodeOfDecodeIsIdentity _ _ _ h
  obtain rfl : (encode i).length = n := by rw [← hbytes, length_readBytes]
  exact ⟨rfl, hl, hr, hbytes⟩

/-- Settles O5: the decoded bytes are the instruction's encoding. -/
theorem stepRunsDecodedInstruction : Obligations.StepRunsDecodedInstruction := by
  intro s n i hl hr h
  obtain ⟨rfl, hc⟩ := codeAt_of_decode hl hr h
  exact step_of_codeAt hc

/-- Taking a fault changes STATUS and nothing else (R203). -/
theorem onlyFaulted_raise (k : FaultKind) (s : State) : s.OnlyFaulted k (raise k s) :=
  ⟨fun _ => rfl, fun _ => rfl, ⟨rfl, rfl⟩, rfl⟩

/-- Settles O6. -/
theorem ipOutsideMemoryFaults : Obligations.IpOutsideMemoryFaults :=
  fun s hl hip => ⟨_, step_of_ip_outside hl (not_lt.mpr hip), onlyFaulted_raise _ s⟩

/-- Settles O7. -/
theorem illegalOpcodeFaults : Obligations.IllegalOpcodeFaults :=
  fun s hl hip hop => ⟨_, step_of_illegal_opcode hl hip (opcodeLength_illegal hop), onlyFaulted_raise _ s⟩

/-- Advancing an IP that lies in memory by at most the longest instruction does not wrap (R83). -/
theorem toNat_ip_advance {s : State} {n : Nat} (hip : s.ip.toNat ≤ MEMORY_SIZE) (hn : n ≤ MAX_LENGTH) :
    (s.ip + BitVec.ofNat 32 n).toNat = s.ip.toNat + n := by
  simp only [MEMORY_SIZE, MAX_LENGTH] at hip hn
  rw [BitVec.toNat_add, BitVec.toNat_ofNat]
  omega

/-- Settles O8: the span check of the operand fetch decides between the two ends. -/
theorem operandBytesAreChecked : Obligations.OperandBytesAreChecked := by
  intro s len hl hip hop
  refine ⟨?_, fun hout => ?_, fun hin => ?_, fun h7 => ?_⟩
  · rw [ip_eq_readReg, readReg_writeReg_same]
    exact toNat_ip_advance hip.le (opcodeLength_bounds hop).2
  · exact ⟨_, step_of_operands_outside hl hip hop (not_le.mpr hout), onlyFaulted_raise ..⟩
  · obtain ⟨hr, -⟩ | ⟨hr, i, hi, -⟩ := fetchOperands_cases hop
    · exact absurd hin hr
    · obtain ⟨rfl, hc⟩ := codeAt_of_decode hl hr hi
      have ⟨_, _, hbytes⟩ := hc
      exact ⟨i, hbytes.symm, step_of_codeAt hc⟩
  · rw [h7] at hop
    obtain rfl : 1 = len := Option.some.inj hop
    exact hip

/-! ### Illegal register fields (R85) -/

section IllegalField
variable {ri rj rk : RegField} (s : State)

theorem withReg_illegal (body : Reg → State) (h : NUM_REGS ≤ ri.toNat) :
    withReg ri s body = raise .invalidRegister s := by
  simp only [← reg?_eq_none] at h
  obtain ⟨i, hi, -⟩ | ⟨-, e⟩ := withReg_cases ri s body
  · simp [hi] at h
  · exact e

theorem withRegs2_illegal (body : Reg → Reg → State) (h : NUM_REGS ≤ ri.toNat ∨ NUM_REGS ≤ rj.toNat) :
    withRegs2 ri rj s body = raise .invalidRegister s := by
  simp only [← reg?_eq_none] at h
  obtain ⟨i, j, hi, hj, -⟩ | ⟨-, e⟩ := withRegs2_cases ri rj s body
  · simp [hi, hj] at h
  · exact e

theorem withRegs3_illegal (body : Reg → Reg → Reg → State)
    (h : NUM_REGS ≤ ri.toNat ∨ NUM_REGS ≤ rj.toNat ∨ NUM_REGS ≤ rk.toNat) :
    withRegs3 ri rj rk s body = raise .invalidRegister s := by
  simp only [← reg?_eq_none] at h
  obtain ⟨i, j, k, hi, hj, hk, -⟩ | ⟨-, e⟩ := withRegs3_cases ri rj rk s body
  · simp [hi, hj, hk] at h
  · exact e

end IllegalField

/-- Settles O9: the check of the fields comes before anything the instruction does. -/
theorem illegalRegisterFieldFaults : Obligations.IllegalRegisterFieldFaults := by
  intro s ri rj rk imm
  have hf := onlyFaulted_raise .invalidRegister s
  refine ⟨fun h => ⟨⟨_, rfl, ?_⟩, _, rfl, ?_⟩, fun h => ⟨⟨_, rfl, ?_⟩, _, rfl, ?_⟩,
    fun h => ⟨⟨_, rfl, ?_⟩, ⟨_, rfl, ?_⟩, _, rfl, ?_⟩⟩
  · exact withRegs3_illegal s _ h ▸ hf
  · exact withRegs3_illegal s _ h ▸ hf
  · exact withRegs2_illegal s _ h ▸ hf
  · exact withRegs2_illegal s _ h ▸ hf
  · exact withReg_illegal s _ h ▸ hf
  · exact withReg_illegal s _ h ▸ hf
  · exact withReg_illegal s _ h ▸ hf

/-! ### STATUS is no input of a step (R29, R89) -/

/-- The same state, but for STATUS.RUNNING. -/
def AgreeButRunning (t u : State) : Prop := ∃ r, u = t.withStatus { t.status with running := r }

theorem AgreeButRunning.refl (t : State) : AgreeButRunning t t := ⟨t.status.running, rfl⟩

section StatusInput
variable (s : State) (st : Status)

/-- A fault overwrites the whole STATUS (R87). -/
theorem agree_raise (k : FaultKind) : AgreeButRunning (raise k s) (raise k (s.withStatus st)) :=
  .refl _

theorem agree_finishContinue : AgreeButRunning (finishContinue s) (finishContinue (s.withStatus st)) :=
  ⟨st.running, rfl⟩

theorem agree_emitThenFinish (text : List Byte) :
    AgreeButRunning (emitThenFinish text s) (emitThenFinish text (s.withStatus st)) := by
  obtain h | ⟨q, hq, h⟩ := accepts_or_rejectsAt s text.length
  · rw [emitThenFinish_accepted h, emitThenFinish_accepted (s := s.withStatus st) h]
    exact agree_finishContinue (s.withPort _) st
  · rw [emitThenFinish_rejected h hq, emitThenFinish_rejected (s := s.withStatus st) h hq]
    exact agree_raise (s.withPort _) st _

section Fields
variable {s st} (ri rj rk : RegField)

theorem agree_withReg {f g : Reg → State} (h : ∀ i, AgreeButRunning (f i) (g i)) :
    AgreeButRunning (withReg ri s f) (withReg ri (s.withStatus st) g) := by
  unfold withReg
  cases reg? ri with
  | none => exact agree_raise s st _
  | some i => exact h i

theorem agree_withRegs2 {f g : Reg → Reg → State} (h : ∀ i j, AgreeButRunning (f i j) (g i j)) :
    AgreeButRunning (withRegs2 ri rj s f) (withRegs2 ri rj (s.withStatus st) g) := by
  unfold withRegs2
  cases reg? ri <;> cases reg? rj
  case some.some i j => exact h i j
  all_goals exact agree_raise s st _

theorem agree_withRegs3 {f g : Reg → Reg → Reg → State}
    (h : ∀ i j k, AgreeButRunning (f i j k) (g i j k)) :
    AgreeButRunning (withRegs3 ri rj rk s f) (withRegs3 ri rj rk (s.withStatus st) g) := by
  unfold withRegs3
  cases reg? ri <;> cases reg? rj <;> cases reg? rk
  case some.some.some i j k => exact h i j k
  all_goals exact agree_raise s st _

end Fields

theorem agree_ite (c : Prop) [Decidable c] {t t' u u' : State} (ht : AgreeButRunning t t')
    (hu : AgreeButRunning u u') : AgreeButRunning (if c then t else u) (if c then t' else u') := by
  split
  · exact ht
  · exact hu

/-- Every instruction ends alike whatever STATUS was, but for RUNNING. -/
theorem exec_agree (i : Instr) :
    ∃ t u, exec i s = .next t ∧ exec i (s.withStatus st) = .next u ∧ AgreeButRunning t u := by
  cases i with
  | condMove ri rj rk =>
    refine ⟨_, _, rfl, rfl, agree_withRegs3 ri rj rk fun i j k => ?_⟩
    simp only [apply_ite finishContinue]
    exact agree_ite (s.readReg k ≠ 0) (agree_finishContinue (s.writeReg i _) st) (agree_finishContinue s st)
  | store ri rj =>
    exact ⟨_, _, rfl, rfl, agree_withRegs2 ri rj fun i j =>
      agree_ite (InRange (dataAddress s i) 4) (agree_finishContinue (s.withMem _) st) (agree_raise s st _)⟩
  | load ri rj =>
    exact ⟨_, _, rfl, rfl, agree_withRegs2 ri rj fun i j =>
      agree_ite (InRange (dataAddress s j) 4) (agree_finishContinue (s.writeReg i _) st) (agree_raise s st _)⟩
  | loadImmediate ri imm =>
    exact ⟨_, _, rfl, rfl, agree_withReg ri fun i => agree_finishContinue (s.writeReg i _) st⟩
  | sub ri rj rk =>
    exact ⟨_, _, rfl, rfl, agree_withRegs3 ri rj rk fun i j k => agree_finishContinue (s.writeReg i _) st⟩
  | outChar ri => exact ⟨_, _, rfl, rfl, agree_withReg ri fun i => agree_emitThenFinish s st _⟩
  | halt => exact ⟨_, _, rfl, rfl, .refl _⟩
  | outInt ri => exact ⟨_, _, rfl, rfl, agree_withReg ri fun i => agree_emitThenFinish s st _⟩

end StatusInput

/-- Every step ends alike whatever STATUS was, but for RUNNING: the phases before the instruction do not
read STATUS, and a fault there overwrites it. -/
theorem step_agree {s : State} (st : Status) (hl : s.loaded = true) :
    ∃ t u, step s = .next t ∧ step (s.withStatus st) = .next u ∧ AgreeButRunning t u := by
  obtain ⟨hip, e⟩ | ⟨hip, hop, e⟩ | ⟨len, hip, hop, hr, e⟩ | ⟨len, i, hip, hop, hr, hi, e⟩ := step_cases hl
  · exact ⟨_, _, e, step_of_ip_outside (s := s.withStatus st) hl hip, agree_raise s st _⟩
  · exact ⟨_, _, e, step_of_illegal_opcode (s := s.withStatus st) hl hip hop, agree_raise s st _⟩
  · exact ⟨_, _, e, step_of_operands_outside (s := s.withStatus st) hl hip hop hr,
      agree_raise (preAdvance len s) st _⟩
  · obtain ⟨t, u, ht, hu, ha⟩ := exec_agree (preAdvance len s) st i
    exact ⟨t, u, e.trans ht, (step_of_decode (s := s.withStatus st) hl hip hop hr hi).trans hu, ha⟩

/-- Settles O12: a state that steps holds a machine, and the two steps agree but for RUNNING. -/
theorem statusDoesNotInfluenceSteps : Obligations.StatusDoesNotInfluenceSteps := by
  intro s t st h
  cases hl : s.loaded with
  | false => simp [step_unloaded hl] at h
  | true =>
    obtain ⟨t', u, ht, hu, r, rfl⟩ := step_agree st hl
    cases ht.symm.trans h
    exact ⟨_, hu, rfl, rfl, rfl, rfl, rfl, rfl⟩

/-! ### Mov, GetIP and Clr (R75) -/

section LegalFields
variable {s : State} {ri rj rk : RegField} {i j k : Reg}
  (hi : reg? ri = some i) (hj : reg? rj = some j) (hk : reg? rk = some k)
include hi hj hk

theorem exec_condMove_nonzero (h : s.readReg k ≠ 0) :
    exec (.condMove ri rj rk) s = .next (finishContinue (s.writeReg i (s.readReg j))) := by
  simp only [exec, execCondMove, withRegs3, hi, hj, hk, if_pos h]

theorem exec_sub :
    exec (.sub ri rj rk) s = .next (finishContinue (s.writeReg i (s.readReg j - s.readReg k))) := by
  simp only [exec, execSub, withRegs3, hi, hj, hk]

end LegalFields

theorem operandByte_of_codeAt {s : State} {bs : List Byte} (h : s.CodeAt bs) {k : Nat}
    (hk : k < bs.length) : operandByte s k = bs[k] := by
  obtain ⟨-, -, hbytes⟩ := h
  rw [operandByte, ← getElem_readBytes _ _ bs.length k (by simpa using hk)]
  simp only [hbytes]

/-- The value an operand byte selects, with an instruction's code at IP (R83). -/
theorem operandValue_of_codeAt {s : State} {i : Instr} (h : s.CodeAt (encode i)) {k : Nat}
    (hk : k < (encode i).length) {r : Reg} (hr : reg? (encode i)[k] = some r) :
    operandValue s k = (preAdvance (encode i).length s).readReg r := by
  obtain ⟨op, rest, he, hop⟩ := encodedLength i
  have h0 : s.mem.read s.ip.toNat = op := by
    have := operandByte_of_codeAt h (k := 0) (by simp [he])
    simpa [operandByte, he] using this
  rw [operandValue_eq (operandByte_of_codeAt h hk ▸ hr), lengthAt_eq (h0 ▸ hop)]

/-- The advanced IP is no zero word (R75, R241). -/
theorem readReg_ip_preAdvance_ne_zero {s : State} {n : Nat} (hr : InRange s.ip.toNat n) (hpos : 0 < n)
    (hn : n ≤ MAX_LENGTH) : (preAdvance n s).readReg IP ≠ 0 := by
  rw [readReg_preAdvance, if_pos rfl]
  intro h
  have hto := toNat_ip_advance (n := n) ((Nat.le_add_right _ _).trans hr) hn
  have h0 : s.ip.toNat + n = 0 := hto.symm.trans (congrArg BitVec.toNat h)
  omega

theorem readReg_finishContinue_writeReg (s : State) (i : Reg) (v : Word) :
    (finishContinue (s.writeReg i v)).readReg i = v := readReg_writeReg_same ..

/-- A write to a general register keeps the advanced IP. -/
theorem ip_finishContinue_writeReg {s : State} {i : Reg} (hi : i ≠ IP) (n : Nat) (v : Word) :
    (finishContinue ((preAdvance n s).writeReg i v)).ip = s.ip + BitVec.ofNat 32 n := by
  rw [ip_eq_readReg, finishContinue_eq, withStatus_readReg, readReg_writeReg_other _ _ _ _ hi.symm,
    readReg_preAdvance, if_pos rfl]

/-- Mov on a general register: register 0 as a condition is the advanced IP, never zero. -/
theorem step_mov {s : State} {ri rj : RegField} {i j : Reg} (hi : reg? ri = some i) (hj : reg? rj = some j)
    (hc : s.CodeAt (encode (.condMove ri rj 0))) :
    step s = .next (finishContinue ((preAdvance 4 s).writeReg i ((preAdvance 4 s).readReg j))) := by
  have ⟨_, hr, _⟩ := hc
  have hnz : (preAdvance 4 s).readReg IP ≠ 0 := readReg_ip_preAdvance_ne_zero hr (by decide) (by decide)
  exact (step_of_codeAt hc).trans (exec_condMove_nonzero hi hj rfl hnz)

/-- Settles O29: Mov, GetIP as the Mov from register 0, and Clr. -/
theorem movGetIpClr : Obligations.MovGetIpClr := by
  intro s ri rj i hi hne hj
  refine ⟨fun hc => ?_, fun hc => ?_, fun hc => ?_⟩
  · have hj' := reg?_legal hj
    refine ⟨_, step_mov hi hj' hc, ?_, ip_finishContinue_writeReg hne 4 _⟩
    rw [operandValue_of_codeAt (i := .condMove ri rj 0) hc (k := 2) (by simp [encode]) hj',
      readReg_finishContinue_writeReg]
    rfl
  · refine ⟨_, step_mov (j := IP) hi rfl hc, ?_, ip_finishContinue_writeReg hne 4 _⟩
    rw [readReg_finishContinue_writeReg, readReg_preAdvance, if_pos rfl]
    obtain ⟨-, hr, -⟩ := hc
    exact toNat_ip_advance ((Nat.le_add_right _ _).trans hr) le_rfl
  · refine ⟨_, (step_of_codeAt (i := .sub ri ri ri) hc).trans (exec_sub hi hi hi), ?_,
      ip_finishContinue_writeReg hne 4 _⟩
    rw [readReg_finishContinue_writeReg]
    exact BitVec.sub_self _

/-! ### RUN is repeated steps (R88) -/

/-- A step of a machine keeps the machine and records CONTINUE, a fault or HALT (R87). -/
theorem step_status {s t : State} (h : step s = .next t) :
    t.loaded = s.loaded ∧
      (s.Continues t ∨ (∃ k, t.Faulted k) ∨ t.status = ⟨.halted, none, false⟩) := by
  obtain ⟨k, -, rfl | ⟨len, rfl⟩⟩ | ⟨len, i, -, -, he⟩ := step_ends h
  · exact ⟨rfl, .inr (.inl ⟨k, rfl⟩)⟩
  · exact ⟨rfl, .inr (.inl ⟨k, rfl⟩)⟩
  · refine ⟨he.loaded, ?_⟩
    obtain hc | ⟨k, hk, -⟩ | ⟨-, hh⟩ := he.status
    · exact .inl hc
    · exact .inr (.inl ⟨k, hk⟩)
    · exact .inr (.inr hh)

theorem run_succ_of_step {s t : State} (h : step s = .next t) (k : Nat) :
    core.run (k + 1) s = core.run k t := by
  have hs : core.step s = .next t := h
  simp only [Host.Core.run, hs]

/-- Every step before number `m` of a RUN from `s` ended in CONTINUE. -/
def ContinuesBefore (m : Nat) (s : State) : Prop :=
  ∀ j, 1 ≤ j → j < m → ∃ u : State, core.run j s = .next u ∧ u.status = ⟨.continued, none, true⟩

theorem continuesBefore_one (s : State) : ContinuesBefore 1 s := fun j h1 hj => by omega

/-- One more step in front that ended in CONTINUE. -/
theorem ContinuesBefore.cons {s t : State} {m : Nat} (h : step s = .next t)
    (ht : t.status = ⟨.continued, none, true⟩) (hm : ContinuesBefore m t) :
    ContinuesBefore (m + 1) s := by
  intro j h1 hj
  obtain ⟨j, rfl⟩ : ∃ j', j = j' + 1 := ⟨j - 1, by omega⟩
  rw [run_succ_of_step h]
  cases j with
  | zero => exact ⟨t, rfl, ht⟩
  | succ j => exact hm (j + 1) (by omega) (by omega)

/-- How a RUN in progress stands after at most `n` steps, in terms of steps alone. -/
inductive RunOutcome (n : Nat) (s : State) : RunResult → Prop where
  | completed {t : State} (m : Nat) (h1 : 1 ≤ m) (hn : m ≤ n) (hrun : core.run m s = .next t)
      (hc : ContinuesBefore m s) (ht : t.status = ⟨.halted, none, false⟩) : RunOutcome n s (.completed t)
  | error {t : State} {k : FaultKind} (m : Nat) (h1 : 1 ≤ m) (hn : m ≤ n) (hrun : core.run m s = .next t)
      (hc : ContinuesBefore m s) (ht : t.Faulted k) : RunOutcome n s (.error k t)
  | unfinished {t : State} (hrun : core.run n s = .next t) (hc : ContinuesBefore (n + 1) s)
      (ht : t.status.running = true) : RunOutcome n s (.unfinished t)

theorem RunOutcome.cons {n : Nat} {s t : State} {r : RunResult} (h : step s = .next t)
    (ht : t.status = ⟨.continued, none, true⟩) (hr : RunOutcome n t r) : RunOutcome (n + 1) s r := by
  cases hr with
  | completed m h1 hn hrun hc hu =>
    exact .completed (m + 1) (by omega) (by omega) ((run_succ_of_step h m).trans hrun) (hc.cons h ht) hu
  | error m h1 hn hrun hc hu =>
    exact .error (m + 1) (by omega) (by omega) ((run_succ_of_step h m).trans hrun) (hc.cons h ht) hu
  | unfinished hrun hc hu =>
    exact .unfinished ((run_succ_of_step h n).trans hrun) (hc.cons h ht) hu

/-- By induction on the number of steps looked at, with the three ways a step can end. -/
theorem continueRun_outcome (n : Nat) {s : State} (hl : s.loaded = true)
    (hr : s.status.running = true) : RunOutcome n s (continueRun n s) := by
  induction n generalizing s with
  | zero => exact .unfinished rfl (continuesBefore_one s) hr
  | succ n ih =>
    obtain ⟨t, h⟩ := exists_step hl
    have hrun : core.run 1 s = .next t := run_succ_of_step h 0
    rw [continueRun, h]
    obtain ⟨hlt, ht | ⟨k, ht⟩ | ht⟩ := step_status h
    · rw [State.Continues, hr] at ht
      have hrt : t.status.running = true := by rw [ht]
      simp only [hrt, if_true]
      exact (ih (hlt.trans hl) hrt).cons h ht
    · simpa [ht, runEnd] using RunOutcome.error 1 le_rfl (by omega) hrun (continuesBefore_one s) ht
    · simpa [ht, runEnd] using RunOutcome.completed 1 le_rfl (by omega) hrun (continuesBefore_one s) ht

theorem runFor_outcome (n : Nat) {s : State} (hl : s.loaded = true) :
    RunOutcome n (beginRun s) (runFor n s) := by
  rw [runFor, if_pos hl]
  exact continueRun_outcome n (s := beginRun s) hl rfl

/-- Settles O40, by how the RUN stands. -/
theorem runIsRepeatedSteps : Obligations.RunIsRepeatedSteps := by
  intro s n hl
  have h := runFor_outcome n hl
  generalize runFor n s = r at h
  cases h with
  | completed m h1 hn hrun hc ht =>
    refine ⟨.inl ⟨_, rfl⟩, fun t => ⟨?_, ?_, nofun, nofun⟩⟩
    · rintro (e | ⟨k, e⟩) <;> cases e
      exact ⟨by rw [ht], m, h1, hn, hrun, hc⟩
    · intro e
      cases e
      rw [ht]
  | error m h1 hn hrun hc ht =>
    refine ⟨.inr (.inl ⟨_, _, rfl⟩), fun t => ⟨?_, nofun, ?_, nofun⟩⟩
    · rintro (e | ⟨k, e⟩) <;> cases e
      exact ⟨by rw [ht], m, h1, hn, hrun, hc⟩
    · intro k e
      cases e
      exact ht
  | unfinished hrun hc ht =>
    refine ⟨.inr (.inr ⟨_, rfl⟩), fun t => ⟨?_, nofun, nofun, ?_⟩⟩
    · rintro (e | ⟨k, e⟩) <;> cases e
    · intro e
      cases e
      exact ⟨hrun, ht, fun j h1 hj => hc j h1 (by omega)⟩

/-- Settles O45. -/
theorem runTransactionBegins : Obligations.RunTransactionBegins :=
  fun _ hl hr => ⟨_, transact_run hr hl, rfl, rfl, fun _ => rfl, fun _ => rfl, rfl, rfl⟩

/-- Settles O46. -/
theorem stepTransactionIsStep : Obligations.StepTransactionIsStep := by
  intro s hr t
  rw [transact_step hr]
  exact ofStep_eq_done

/-! ### Placing an instruction with `withFetchWord` -/

theorem leValue_lt (bs : List Byte) : leValue bs < 256 ^ bs.length := by
  induction bs with
  | nil => simp [leValue]
  | cons b bs ih =>
    have hb := b.isLt
    rw [leValue, List.length_cons, Nat.pow_succ]
    omega

/-- The low bytes of a number written from bytes are those bytes. -/
theorem take_leBytes_leValue {bs : List Byte} {n : Nat} (h : bs.length ≤ n) :
    (leBytes n (leValue bs)).take bs.length = bs := by
  induction bs generalizing n with
  | nil => simp
  | cons b bs ih =>
    obtain ⟨n, rfl⟩ : ∃ n', n = n' + 1 := ⟨n - 1, by simp at h; omega⟩
    have hb := b.isLt
    have hdiv : (b.toNat + 256 * leValue bs) / 256 = leValue bs := by omega
    have hlow : BitVec.ofNat 8 (b.toNat + 256 * leValue bs) = b := by
      apply BitVec.eq_of_toNat_eq
      rw [BitVec.toNat_ofNat]
      omega
    rw [leBytes, leValue, List.length_cons, List.take_succ_cons, hdiv, hlow, ih (by simpa using h)]

/-- The bits of an instruction, gathered little-endian, are its bytes with zeros above (R61). -/
theorem take_tableBytes_leValue {bs : List Byte} (h : bs.length ≤ MAX_LENGTH) :
    (tableBytes (8 * bs.length) (leValue bs)).take bs.length = bs := by
  have hlt : leValue bs < 2 ^ (8 * bs.length) := by
    rw [Nat.pow_mul]
    exact leValue_lt bs
  rw [tableBytes, Nat.mod_eq_of_lt hlt, take_leBytes_leValue h]

/-- Reading from where a byte string was put gives its first bytes. -/
theorem readBytes_writeBytes {m : Memory} {a n : Nat} {bs : List Byte} (h : m.wf = true)
    (ha : a + bs.length ≤ MEMORY_SIZE) (hn : n ≤ bs.length) :
    (m.writeBytes a bs).readBytes a n = bs.take n := by
  apply List.ext_getElem
  · simp [hn]
  · intro k hk _
    rw [length_readBytes] at hk
    rw [getElem_readBytes, read_writeBytes_inside h ha (by omega), List.getElem_take]

theorem writeReg_readReg_self (s : State) (r : Reg) : s.writeReg r (s.readReg r) = s := by
  simp [State.writeReg, State.readReg]

/-- Where the instruction fits at IP, placing writes bytes there and makes sure of a machine, and does
nothing else. -/
theorem placeInstruction_of_inRange {s : State} {n : Nat} (bs : List Byte) (h : InRange s.ip.toNat n) :
    placeInstruction n bs s = { placeBytes s.ip.toNat bs s with loaded := true } := by
  have hip : BitVec.ofNat 32 s.ip.toNat = s.readReg IP := by
    rw [BitVec.ofNat_toNat, BitVec.setWidth_eq, ip_eq_readReg]
  rw [placeInstruction, placeAddress, if_pos h, hip, writeReg_readReg_self]

/-- Settles O44: the placed bytes are read back at IP. -/
theorem fetchWordPlacesTheInstruction : Obligations.FetchWordPlacesTheInstruction := by
  intro s i hwf hr
  have hlen := length_encode_le i
  have hp : s.withFetchWord (8 * (encode i).length) (leValue (encode i)) =
      { placeBytes s.ip.toNat (tableBytes (8 * (encode i).length) (leValue (encode i))) s with
        loaded := true } := by
    rw [State.withFetchWord, Nat.mul_div_cancel_left _ (by decide), placeInstruction_of_inRange _ hr]
  refine ⟨_, rfl, ?_, ?_, step_of_codeAt ?_⟩ <;> rw [hp]
  · exact fun _ => rfl
  · rfl
  · refine ⟨rfl, hr, ?_⟩
    have htab : (tableBytes (8 * (encode i).length) (leValue (encode i))).length = MAX_LENGTH :=
      length_leBytes ..
    simp only [InRange] at hr
    refine (readBytes_writeBytes hwf ?_ ?_).trans ?_
    · rw [List.length_take]
      omega
    · rw [List.length_take]
      omega
    · rw [List.take_take, min_eq_left (by omega)]
      exact take_tableBytes_leValue hlen

end Sys2Proof.Machine

namespace Sys2Proof.Machine

/-! ### Register moves (R100, R101) -/

/-- A write-back that goes on: the destination holds the value, and nothing else but STATUS changes. -/
theorem finishContinue_writeReg_result (s : State) (i : Reg) (v : Word) :
    (finishContinue (s.writeReg i v)).readReg i = v
    ∧ s.SameRegsBut i (finishContinue (s.writeReg i v)) ∧ s.SameMem (finishContinue (s.writeReg i v))
    ∧ s.SameRest (finishContinue (s.writeReg i v)) ∧ s.Continues (finishContinue (s.writeReg i v)) :=
  ⟨readReg_finishContinue_writeReg s i v, fun q hq => readReg_writeReg_other s i q v hq, fun _ => rfl,
    ⟨rfl, rfl⟩, rfl⟩

/-- CondMove is one write-back in both cases: where the condition is zero, of the destination's own value. -/
theorem exec_condMove {s : State} {ri rj rk : RegField} {i j k : Reg}
    (hi : reg? ri = some i) (hj : reg? rj = some j) (hk : reg? rk = some k) :
    exec (.condMove ri rj rk) s =
      .next (finishContinue (s.writeReg i (if s.readReg k ≠ 0 then s.readReg j else s.readReg i))) := by
  by_cases h : s.readReg k ≠ 0
  · rw [exec_condMove_nonzero hi hj hk h, if_pos h]
  · rw [if_neg h, writeReg_readReg_self]
    simp only [exec, execCondMove, withRegs3, hi, hj, hk, if_neg h]

/-- Settles O15: a CondMove is a write-back, whatever its condition. -/
theorem condMoveResult : Obligations.CondMoveResult := by
  intro s ri rj rk i j k hi hj hk
  exact ⟨rfl, _, exec_condMove hi hj hk, finishContinue_writeReg_result ..⟩

theorem exec_loadImmediate {s : State} {ri : RegField} {i : Reg} (hi : reg? ri = some i) (imm : Half) :
    exec (.loadImmediate ri imm) s = .next (finishContinue (s.writeReg i (sext32 imm))) := by
  simp only [exec, execLoadImmediate, withReg, hi]

/-- The sign rule of R63 in numbers: bit 15 of the immediate fills the upper half. -/
theorem toNat_sext32 (imm : Half) :
    (sext32 imm).toNat = if imm.toNat < 0x8000 then imm.toNat else imm.toNat + 0xFFFF0000 := by
  have hmsb : imm.msb = true ↔ ¬ imm.toNat < 0x8000 := by
    rw [BitVec.msb_eq_decide, decide_eq_true_iff, not_lt]
  have hlow : (imm.setWidth 32).toNat = imm.toNat := BitVec.toNat_setWidth_of_le (by decide)
  rw [sext32, BitVec.toNat_signExtend, hlow]
  by_cases h : imm.toNat < 0x8000
  · rw [if_pos h, if_neg fun hm => hmsb.mp hm h, Nat.add_zero]
  · rw [if_neg h, if_pos (hmsb.mpr h)]

/-- The immediate's bytes, low byte first, are joined to it again (R63). -/
theorem append_eq_of_toNat {imm : Half} {lo hi : Byte} (h : imm.toNat = lo.toNat + 256 * hi.toNat) :
    hi ++ lo = imm := by
  rw [append_eq_ofNat, ← h, BitVec.ofNat_toNat, BitVec.setWidth_eq]

/-- Settles O16: a LoadImmediate is a write-back of the sign-extended immediate. -/
theorem loadImmediateResult : Obligations.LoadImmediateResult := by
  intro s ri imm i hi
  obtain ⟨hval, hframe⟩ := finishContinue_writeReg_result s i (sext32 imm)
  refine ⟨fun lo hi' h => ?_, _, exec_loadImmediate hi imm, ?_, hframe⟩
  · rw [← append_eq_of_toNat h]
    rfl
  · rw [hval, toNat_sext32]

end Sys2Proof.Machine

namespace Sys2Proof.Machine

/-! ### Little-endian values in memory (R10, R41) -/

/-- Byte `k` of a number held little-endian is its digit `k` in base 256. -/
theorem getElem_leBytes (n w k : Nat) (hk : k < (leBytes n w).length) :
    (leBytes n w)[k] = BitVec.ofNat 8 (w / 256 ^ k) := by
  induction n generalizing w k with
  | zero => simp [leBytes] at hk
  | succ n ih =>
    cases k with
    | zero => simp [leBytes]
    | succ k =>
      simp only [leBytes, List.getElem_cons_succ]
      rw [ih, Nat.div_div_eq_div_mul, Nat.pow_succ']

/-- What a read sees inside the span of a memory write. -/
theorem toNat_read_memWrite_inside {m : Memory} {a n v k : Nat} (h : m.wf = true) (ha : InRange a n)
    (hk : k < n) : ((m.memWrite a n v).read (a + k)).toNat = v / 256 ^ k % 256 := by
  rw [Memory.memWrite, read_writeBytes_inside h (by simpa using ha) (by simpa using hk),
    getElem_leBytes, BitVec.toNat_ofNat]

/-- Reading back the span of a memory write gives the value, as far as it fits. -/
theorem memRead_memWrite {m : Memory} {a n v : Nat} (h : m.wf = true) (ha : InRange a n) :
    (m.memWrite a n v).memRead a n = v % 256 ^ n := by
  rw [Memory.memRead, Memory.memWrite, readBytes_writeBytes h (by simpa using ha) (by simp),
    List.take_of_length_le (by simp), leValue_leBytes]

/-- A memory read depends on the bytes of its span only. -/
theorem memRead_congr {m m' : Memory} {a n : Nat} (h : ∀ k, k < n → m.read (a + k) = m'.read (a + k)) :
    m.memRead a n = m'.memRead a n := by
  have hbytes : m.readBytes a n = m'.readBytes a n := by
    apply List.ext_getElem
    · simp
    · intro k hk _
      rw [getElem_readBytes, getElem_readBytes]
      exact h k (by simpa using hk)
  rw [Memory.memRead, hbytes, Memory.memRead]

/-- The value of four bytes fits a register. -/
theorem memRead_four_lt (m : Memory) (a : Nat) : m.memRead a 4 < 2 ^ 32 := by
  simpa [Memory.memRead] using leValue_lt (m.readBytes a 4)

theorem memRead_four (m : Memory) (a : Nat) :
    m.memRead a 4 = (m.read a).toNat + 256 * (m.read (a + 1)).toNat
      + 65536 * (m.read (a + 2)).toNat + 16777216 * (m.read (a + 3)).toNat := by
  simp only [Memory.memRead, Memory.readBytes, leValue, Nat.add_assoc, Nat.reduceAdd]
  omega

/-! ### Store and Load with legal fields (R120, R121) -/

section StoreLoad
variable {s : State} {ri rj : RegField} {i j : Reg} (hi : reg? ri = some i) (hj : reg? rj = some j)
include hi hj

theorem exec_store_inRange (h : InRange (s.readReg i).toNat 4) :
    exec (.store ri rj) s = .next (finishContinue
      (s.withMem (s.mem.memWrite (s.readReg i).toNat 4 (s.readReg j).toNat))) := by
  simp only [exec, execStore, withRegs2, hi, hj]
  exact congrArg _ (if_pos h)

theorem exec_store_outside (h : ¬ InRange (s.readReg i).toNat 4) :
    exec (.store ri rj) s = .next (raise .invalidMemoryAccess s) := by
  simp only [exec, execStore, withRegs2, hi, hj]
  exact congrArg _ (if_neg h)

theorem exec_load_inRange (h : InRange (s.readReg j).toNat 4) :
    exec (.load ri rj) s = .next (finishContinue
      (s.writeReg i (BitVec.ofNat 32 (s.mem.memRead (s.readReg j).toNat 4)))) := by
  simp only [exec, execLoad, withRegs2, hi, hj]
  exact congrArg _ (if_pos h)

theorem exec_load_outside (h : ¬ InRange (s.readReg j).toNat 4) :
    exec (.load ri rj) s = .next (raise .invalidMemoryAccess s) := by
  simp only [exec, execLoad, withRegs2, hi, hj]
  exact congrArg _ (if_neg h)

end StoreLoad

/-- Settles O17: in range a Store is a four-byte memory write that goes on, out of range a fault. -/
theorem storeResult : Obligations.StoreResult := by
  intro s ri rj i j hwf hi hj
  refine ⟨rfl, fun hin => ?_, fun hout => ?_⟩
  · exact ⟨_, exec_store_inRange hi hj hin, fun k hk => toNat_read_memWrite_inside hwf hin hk,
      fun a ha => read_memWrite_outside ha, fun _ => rfl, ⟨rfl, rfl⟩, rfl⟩
  · exact ⟨_, exec_store_outside hi hj (not_le.mpr hout), onlyFaulted_raise _ s⟩

/-- Settles O18: in range a Load is a write-back of the four bytes' value, which fits a register; out of
range it is a fault. -/
theorem loadResult : Obligations.LoadResult := by
  rintro s ri rj i j a hi hj rfl
  refine ⟨rfl, fun hin => ?_, fun hout => ?_⟩
  · obtain ⟨hval, hframe⟩ := finishContinue_writeReg_result s i
      (BitVec.ofNat 32 (s.mem.memRead (s.readReg j).toNat 4))
    refine ⟨_, exec_load_inRange hi hj hin, ?_, hframe⟩
    rw [hval, BitVec.toNat_ofNat, Nat.mod_eq_of_lt (memRead_four_lt ..), memRead_four]
  · exact ⟨_, exec_load_outside hi hj (not_le.mpr hout), onlyFaulted_raise _ s⟩

/-- Settles O19: the Load reads the same four bytes as are in memory after the Store, and those hold the
stored word whole. -/
theorem storeThenLoadRoundTrips : Obligations.StoreThenLoadRoundTrips := by
  intro s t u ri rj rl rm i j l m hwf hi hj hl hm hin hstore haddr hbytes
  cases (exec_store_inRange hi hj hin).symm.trans hstore
  have hread : u.mem.memRead (s.readReg i).toNat 4 = (s.readReg j).toNat := by
    rw [memRead_congr hbytes]
    exact (memRead_memWrite hwf hin).trans (Nat.mod_eq_of_lt (s.readReg j).isLt)
  refine ⟨_, exec_load_inRange hl hm (haddr ▸ hin), ?_⟩
  rw [readReg_finishContinue_writeReg, haddr, hread, BitVec.ofNat_toNat, BitVec.setWidth_eq]

end Sys2Proof.Machine

namespace Sys2Proof.Machine

/-! ### Sub (R140, R141) -/

/-- The wrapping difference of R140 in numbers. The library's `BitVec.toNat_sub` is over the naturals, where
2^32 is added before the subtraction. -/
theorem toNat_word_sub (x y : Word) :
    ((x - y).toNat : Int) = ((x.toNat : Int) - (y.toNat : Int)) % 4294967296 := by
  have hy : y.toNat < 4294967296 := y.isLt
  rw [BitVec.toNat_sub]
  omega

/-- Settles O20: a Sub is a write-back of the wrapping difference. -/
theorem subResult : Obligations.SubResult := by
  intro s ri rj rk i j k hi hj hk
  obtain ⟨hval, hframe⟩ := finishContinue_writeReg_result s i (s.readReg j - s.readReg k)
  refine ⟨rfl, _, exec_sub hi hj hk, ?_, hframe⟩
  rw [hval, toNat_word_sub]

end Sys2Proof.Machine

namespace Sys2Proof.Machine

/-! ### OutChar and OutInt with a legal field (R161, R162) -/

section Output
variable {s : State} {ri : RegField} {i : Reg} (hi : reg? ri = some i)
include hi

theorem exec_outChar :
    exec (.outChar ri) s = .next (emitThenFinish [(s.readReg i).setWidth 8] s) := by
  simp only [exec, execOutChar, withReg, hi]

theorem exec_outInt : exec (.outInt ri) s = .next (emitThenFinish (decText (s.readReg i)) s) := by
  simp only [exec, execOutInt, withReg, hi]

end Output

/-- Settles O21: a text of one byte, which the host's next answer accepts or rejects whole. -/
theorem outCharResult : Obligations.OutCharResult := by
  intro s ri i hi
  have hbyte : (s.readReg i).setWidth 8 = BitVec.ofNat 8 ((s.readReg i).toNat % 256) :=
    BitVec.eq_of_toNat_eq (by simp)
  have hexec := exec_outChar (s := s) hi
  rw [hbyte] at hexec
  refine ⟨rfl, fun ha => ?_, fun hr => ?_⟩
  · have hacc : s.Accepts 1 := fun k hk => by
      obtain rfl : k = 0 := by omega
      exact ha
    rw [hexec, emitThenFinish_accepted hacc]
    exact ⟨_, rfl, rfl, rfl, rfl, fun _ => rfl, fun _ => rfl, rfl, rfl⟩
  · have hrej : s.RejectsAt 0 := ⟨nofun, hr⟩
    rw [hexec, emitThenFinish_rejected (text := [_]) hrej Nat.one_pos]
    exact ⟨_, rfl, List.append_nil _, rfl, rfl, fun _ => rfl, fun _ => rfl, rfl, rfl⟩

/-- Settles O22: the port delivers the whole text, or the bytes before the rejected one. -/
theorem outIntResult : Obligations.OutIntResult := by
  intro s ri i hi
  refine ⟨rfl, fun hacc => ?_, fun p hp hrej => ?_⟩
  · rw [exec_outInt hi, emitThenFinish_accepted hacc]
    exact ⟨_, rfl, rfl, rfl, rfl, fun _ => rfl, fun _ => rfl, rfl, rfl⟩
  · rw [exec_outInt hi, emitThenFinish_rejected hrej hp]
    exact ⟨_, rfl, rfl, rfl, rfl, fun _ => rfl, fun _ => rfl, rfl, rfl⟩

/-! ### The output of a step starts the text at IP (R160) -/

/-- However the host answers, what reaches it is the first bytes of the text offered. -/
theorem emitThenFinish_output (text : List Byte) (s : State) :
    ∃ p, (emitThenFinish text s).port.output = s.port.output ++ text.take p := by
  obtain ⟨-, h⟩ | ⟨q, -, -, h⟩ := emitThenFinish_cases text s
  · exact ⟨text.length, by rw [h, List.take_length]; rfl⟩
  · exact ⟨q, by rw [h]; rfl⟩

/-- The same behind the check of the register field; an illegal field sends nothing. -/
theorem withReg_emitThenFinish_output {ri : RegField} {text : Reg → List Byte} {full : List Byte}
    (h : ∀ i, reg? ri = some i → text i = full) (s : State) :
    ∃ p, (withReg ri s fun i => emitThenFinish (text i) s).port.output
      = s.port.output ++ full.take p := by
  obtain ⟨i, hi, e⟩ | ⟨-, e⟩ := withReg_cases ri s fun i => emitThenFinish (text i) s
  · rw [e, h i hi]
    exact emitThenFinish_output full s
  · exact ⟨0, by rw [e, List.take_zero, List.append_nil]; rfl⟩

/-- With an OutChar's code at IP the opcode is 6, and the text is its register's low byte (R161). -/
theorem textAt_of_outChar {s : State} {ri : RegField} (h : s.CodeAt (encode (.outChar ri))) :
    opcodeAt s = 6 ∧
    ∀ i, reg? ri = some i → [((preAdvance 2 s).readReg i).setWidth 8] = textAt s := by
  have hop : opcodeAt s = 6 := congrArg BitVec.toNat (operandByte_of_codeAt h (k := 0) (by simp [encode]))
  refine ⟨hop, fun i hi => ?_⟩
  have hval := operandValue_of_codeAt (i := .outChar ri) h (k := 1) (by simp [encode]) hi
  rw [textAt, if_pos hop, hval]
  rfl

/-- With an OutInt's code at IP the opcode is 8, and the text is its register's decimal text (R162). -/
theorem textAt_of_outInt {s : State} {ri : RegField} (h : s.CodeAt (encode (.outInt ri))) :
    opcodeAt s = 8 ∧ ∀ i, reg? ri = some i → decText ((preAdvance 2 s).readReg i) = textAt s := by
  have hop : opcodeAt s = 8 := congrArg BitVec.toNat (operandByte_of_codeAt h (k := 0) (by simp [encode]))
  refine ⟨hop, fun i hi => ?_⟩
  have hval := operandValue_of_codeAt (i := .outInt ri) h (k := 1) (by simp [encode]) hi
  rw [textAt, if_neg (by omega), hval]
  rfl

/-- A step leaves the host's side as it is, or an output instruction lies at IP and the host has received
the first bytes of its text. -/
theorem step_port {s t : State} (h : step s = .next t) :
    t.port = s.port ∨ ((opcodeAt s = 6 ∨ opcodeAt s = 8) ∧
      ∃ p, t.port.output = s.port.output ++ (textAt s).take p) := by
  cases hl : s.loaded with
  | false => simp [step_unloaded hl] at h
  | true =>
    obtain ⟨-, e⟩ | ⟨-, -, e⟩ | ⟨len, -, -, -, e⟩ | ⟨len, i, -, -, hr, hi, e⟩ := step_cases hl
    case inr.inr.inr =>
      obtain ⟨rfl, hc⟩ := codeAt_of_decode hl hr hi
      rw [e] at h
      cases i with
      | outChar ri =>
        obtain ⟨hop, htext⟩ := textAt_of_outChar hc
        cases h
        exact .inr ⟨.inl hop, withReg_emitThenFinish_output htext (preAdvance 2 s)⟩
      | outInt ri =>
        obtain ⟨hop, htext⟩ := textAt_of_outInt hc
        cases h
        exact .inr ⟨.inr hop, withReg_emitThenFinish_output htext (preAdvance 2 s)⟩
      | condMove | store | load | loadImmediate | sub | halt =>
        exact .inl ((ends_of_exec h).port fun _ => ⟨nofun, nofun⟩)
    all_goals
      cases e.symm.trans h
      exact .inl rfl

/-- Settles O14: where the host's side is as before, it has received no byte of the text. -/
theorem onlyOutputStepsReachThePort : Obligations.OnlyOutputStepsReachThePort := by
  intro s t h
  obtain ⟨hloaded, -⟩ := step_status h
  obtain hport | ⟨hop, hout⟩ := step_port h
  · exact ⟨⟨0, by rw [hport, List.take_zero, List.append_nil]⟩, fun _ => ⟨hport, hloaded⟩⟩
  · exact ⟨hout, fun hno => by omega⟩

/-! ### Decimal text (R163) -/

/-- The ASCII digit of a number below 10. -/
def digitByte (d : Nat) : Byte := BitVec.ofNat 8 (0x30 + d)

theorem toNat_digitByte {d : Nat} (h : d < 10) : (digitByte d).toNat = 0x30 + d := by
  rw [digitByte, BitVec.toNat_ofNat]
  omega

/-- `ds` is the decimal writing of `n`: digits alone, at least one, and no superfluous zero in front. -/
structure IsDecimal (n : Nat) (ds : List Byte) : Prop where
  nonempty : ds ≠ []
  digits : ∀ d ∈ ds, 0x30 ≤ d.toNat ∧ d.toNat ≤ 0x39
  noLeadingZero : ds.head? = some 0x30 → ds = [0x30]
  value : digitsValue ds = n

theorem isDecimal_digitByte {d : Nat} (h : d < 10) : IsDecimal d [digitByte d] where
  nonempty := nofun
  digits b hb := by
    rw [List.mem_singleton.mp hb, toNat_digitByte h]
    omega
  noLeadingZero h0 := congrArg (fun b => [b]) (Option.some.inj h0)
  value := by simp [digitsValue, toNat_digitByte h]

/-- A digit behind the writing of a positive number gives the writing of ten times that number plus the
digit. -/
theorem IsDecimal.append_digit {n d : Nat} {ds : List Byte} (h : IsDecimal n ds) (hn : 0 < n) (hd : d < 10) :
    IsDecimal (10 * n + d) (ds ++ [digitByte d]) where
  nonempty := by simp
  digits b hb := by
    obtain hb | hb := List.mem_append.mp hb
    · exact h.digits b hb
    · exact (isDecimal_digitByte hd).digits b hb
  noLeadingZero h0 := by
    rw [List.head?_append_of_ne_nil _ h.nonempty] at h0
    have hzero : digitsValue ds = 0 := by
      rw [h.noLeadingZero h0]
      rfl
    rw [h.value] at hzero
    omega
  value := by
    have hv : ds.foldl (fun acc b => 10 * acc + (b.toNat - 0x30)) 0 = n := h.value
    simp [digitsValue, List.foldl_append, hv, toNat_digitByte hd]

theorem decDigits_of_lt {n : Nat} (h : n < 10) (fuel : Nat) (acc : List Byte) :
    decDigits (fuel + 1) n acc = digitByte n :: acc := if_pos h

theorem decDigits_of_ge {n : Nat} (h : 10 ≤ n) (fuel : Nat) (acc : List Byte) :
    decDigits (fuel + 1) n acc = decDigits fuel (n / 10) (digitByte (n % 10) :: acc) :=
  if_neg (not_lt.mpr h)

/-- With fuel for every digit, the writing of the number is put before the accumulator. -/
theorem decDigits_eq_append {fuel n : Nat} (hn : n < 10 ^ (fuel + 1)) (acc : List Byte) :
    ∃ ds, decDigits (fuel + 1) n acc = ds ++ acc ∧ IsDecimal n ds := by
  induction fuel generalizing n acc with
  | zero => exact ⟨[digitByte n], decDigits_of_lt hn 0 acc, isDecimal_digitByte hn⟩
  | succ fuel ih =>
    by_cases h : n < 10
    · exact ⟨[digitByte n], decDigits_of_lt h _ acc, isDecimal_digitByte h⟩
    · have hq : n / 10 < 10 ^ (fuel + 1) := by
        rw [pow_succ] at hn
        exact Nat.div_lt_of_lt_mul (by omega)
      obtain ⟨ds, hds, hdec⟩ := ih hq (digitByte (n % 10) :: acc)
      refine ⟨ds ++ [digitByte (n % 10)], ?_, ?_⟩
      · rw [decDigits_of_ge (by omega), hds, List.append_assoc, List.singleton_append]
      · have hlast := hdec.append_digit (d := n % 10) (by omega) (by omega)
        rwa [Nat.div_add_mod] at hlast

/-- The magnitude of a signed word has at most ten digits (R162). -/
theorem natAbs_toInt_lt (w : Word) : w.toInt.natAbs < 10 ^ 10 := by
  have hlo := BitVec.le_toInt w
  have hhi := BitVec.toInt_lt (x := w)
  omega

/-- Settles O23: the digits of the text are the decimal writing of the magnitude. -/
theorem decimalTextIsRight : Obligations.DecimalTextIsRight := by
  intro w
  obtain ⟨ds, hds, hdec⟩ := decDigits_eq_append (natAbs_toInt_lt w) []
  rw [List.append_nil] at hds
  have htext : decText w = if w.toInt < 0 then 0x2D :: ds else ds := by rw [decText, hds]
  exact ⟨ds, htext, hdec.nonempty, hdec.digits, hdec.noLeadingZero, hdec.value, length_decText_le w⟩

end Sys2Proof.Machine

namespace Sys2Proof.Machine

/-! ### Halt (R180) -/

theorem exec_halt (s : State) : exec .halt s = .next (finishHalt s) := rfl

/-- The pre-advance writes register 0 and no other (R83). -/
theorem sameRegsBut_preAdvance (n : Nat) (s : State) : s.SameRegsBut IP (preAdvance n s) := fun q hq => by
  rw [readReg_preAdvance, if_neg hq]

/-- Settles O24: the step is the pre-advance by one byte, then STATUS HALT. -/
theorem haltResult : Obligations.HaltResult := by
  refine ⟨fun s => ⟨_, exec_halt s, fun _ => rfl, fun _ => rfl, ⟨rfl, rfl⟩, rfl⟩, fun s hc => ?_⟩
  have hstep : step s = .next (finishHalt (preAdvance 1 s)) := step_of_codeAt (i := .halt) hc
  have hip : (finishHalt (preAdvance 1 s)).ip = s.ip + 1 := readReg_writeReg_same ..
  obtain ⟨-, hr, -⟩ := hc
  refine ⟨_, hstep, hip, ?_, sameRegsBut_preAdvance 1 s, fun _ => rfl, ⟨rfl, rfl⟩, rfl⟩
  rw [hip]
  exact toNat_ip_advance ((Nat.le_add_right _ _).trans hr) (by decide)

/-! ### Control transfer (R181 to R183) -/

/-- The machine's next step goes on at `v`, and no other register changes. -/
def State.JumpsTo (s : State) (v : Word) : Prop :=
  ∃ t, step s = .next t ∧ t.ip = v ∧ s.SameRegsBut IP t ∧ s.Continues t

/-- A step that ends in a write of register 0 is a jump, whatever the value (R181, R182). -/
theorem jumpsTo_of_exec {s : State} {i : Instr} {v : Word} (hc : s.CodeAt (encode i))
    (he : exec i (preAdvance (encode i).length s) =
      .next (finishContinue ((preAdvance (encode i).length s).writeReg IP v))) : s.JumpsTo v := by
  obtain ⟨hip, hregs, -, -, hst⟩ :=
    finishContinue_writeReg_result (preAdvance (encode i).length s) IP v
  exact ⟨_, (step_of_codeAt hc).trans he, hip,
    fun q hq => (hregs q hq).trans (sameRegsBut_preAdvance _ s q hq), hst⟩

section Jumps
variable {s : State} {rj rk : RegField}

theorem loadImmediate_jumps {imm : Half} (hc : s.CodeAt (encode (.loadImmediate 0 imm))) :
    s.JumpsTo (sext32 imm) :=
  jumpsTo_of_exec hc (exec_loadImmediate rfl imm)

variable (hj : rj.toNat < NUM_REGS)
include hj

theorem load_jumps (hc : s.CodeAt (encode (.load 0 rj))) (hr : InRange (operandValue s 2).toNat 4) :
    s.JumpsTo (BitVec.ofNat 32 (s.mem.memRead (operandValue s 2).toNat 4)) := by
  have hj' := reg?_legal hj
  rw [operandValue_of_codeAt hc (k := 2) (by simp [encode]) hj'] at hr ⊢
  exact jumpsTo_of_exec hc (exec_load_inRange rfl hj' hr)

variable (hk : rk.toNat < NUM_REGS)
include hk

/-- A conditional jump; where the condition is zero, to the advanced IP, the destination's own value. -/
theorem condMove_jumps (hc : s.CodeAt (encode (.condMove 0 rj rk))) :
    s.JumpsTo (if operandValue s 3 ≠ 0 then operandValue s 2 else s.ip + 4) := by
  have hj' := reg?_legal hj
  have hk' := reg?_legal hk
  have hip : s.ip + 4 = (preAdvance 4 s).readReg IP := (readReg_writeReg_same ..).symm
  rw [operandValue_of_codeAt hc (k := 2) (by simp [encode]) hj',
    operandValue_of_codeAt hc (k := 3) (by simp [encode]) hk', hip]
  exact jumpsTo_of_exec hc (exec_condMove rfl hj' hk')

theorem sub_jumps (hc : s.CodeAt (encode (.sub 0 rj rk))) :
    s.JumpsTo (operandValue s 2 - operandValue s 3) := by
  have hj' := reg?_legal hj
  have hk' := reg?_legal hk
  rw [operandValue_of_codeAt hc (k := 2) (by simp [encode]) hj',
    operandValue_of_codeAt hc (k := 3) (by simp [encode]) hk']
  exact jumpsTo_of_exec hc (exec_sub rfl hj' hk')

end Jumps

/-- Settles O28, row by row of R183. The unconditional jump is the conditional one on register 0, the advanced
IP, never zero; the relative one is a Sub with register 0 as its first source. -/
theorem writesToRegisterZeroJump : Obligations.WritesToRegisterZeroJump := by
  intro s rj rk lo hi imm
  refine ⟨fun hc himm => ?_, condMove_jumps, fun hj hc => ?_, load_jumps, sub_jumps, fun hk hc => ?_⟩
  · have he : [0x04, 0x00, lo, hi] = encode (.loadImmediate 0 imm) := by
      obtain ⟨hlo, hhi⟩ := halves_append hi lo
      rw [← append_eq_of_toNat himm, encode, hlo, hhi]
    exact loadImmediate_jumps (he ▸ hc)
  · have hnz : operandValue s 3 ≠ 0 := by
      rw [operandValue_of_codeAt (i := .condMove 0 rj 0) hc (k := 3) (by simp [encode]) (r := IP) rfl]
      obtain ⟨-, hr, -⟩ := hc
      exact readReg_ip_preAdvance_ne_zero (n := 4) hr (by decide) (by decide)
    have hjump := condMove_jumps hj (rk := 0) (by decide) hc
    rwa [if_pos hnz] at hjump
  · have hip : operandValue s 2 = s.ip + 4 :=
      (operandValue_of_codeAt (i := .sub 0 0 rk) hc (k := 2) (by simp [encode]) (r := IP) rfl).trans
        (readReg_writeReg_same ..)
    exact hip ▸ sub_jumps (rj := 0) (by decide) hk hc

end Sys2Proof.Machine

namespace Sys2Proof.Machine

/-! ### The first failing check and how a step ends (R202, R203) -/

/-- Checks 5 and 6 of R202: the data span of a Store or Load, then the host's answers to a text. -/
def dataOrOutputCheck (s : State) : Option FaultKind :=
  if opcodeAt s = 2 ∧ MEMORY_SIZE < (operandValue s 1).toNat + 4 then some .invalidMemoryAccess
  else if opcodeAt s = 3 ∧ MEMORY_SIZE < (operandValue s 2).toNat + 4 then some .invalidMemoryAccess
  else if (opcodeAt s = 6 ∨ opcodeAt s = 8) ∧ ¬ s.Accepts (textAt s).length then some .outputError
  else none

/-- Checks 1 and 2 of R202 pass: IP lies in memory, at a legal opcode. -/
abbrev State.AtLegalOpcode (s : State) : Prop :=
  s.ip.toNat < MEMORY_SIZE ∧ 1 ≤ opcodeAt s ∧ opcodeAt s ≤ 8

/-- Check 4 of R202 fails, read off the bytes at IP. -/
abbrev State.IllegalFieldAt (s : State) : Prop :=
  ∃ k, k < fieldsAt s ∧ NUM_REGS ≤ (operandByte s (k + 1)).toNat

/-! The priority list of R202, phase by phase. -/

theorem firstFailingCheck_of_ip_outside {s : State} (h : MEMORY_SIZE ≤ s.ip.toNat) :
    firstFailingCheck s = some .invalidMemoryAccess := if_pos h

theorem firstFailingCheck_of_illegal_opcode {s : State} (hip : s.ip.toNat < MEMORY_SIZE)
    (h : opcodeAt s = 0 ∨ 9 ≤ opcodeAt s) : firstFailingCheck s = some .invalidInstruction := by
  rw [firstFailingCheck, if_neg (not_le.mpr hip), if_pos h]

section LegalOpcode
variable {s : State} (ha : s.AtLegalOpcode)
include ha

theorem firstFailingCheck_of_operands_outside (h : MEMORY_SIZE < s.ip.toNat + lengthAt s) :
    firstFailingCheck s = some .invalidMemoryAccess := by
  rw [firstFailingCheck, if_neg (by omega), if_neg (by omega), if_pos h]

variable (hr : InRange s.ip.toNat (lengthAt s))
include hr

theorem firstFailingCheck_of_illegalField (h : s.IllegalFieldAt) :
    firstFailingCheck s = some .invalidRegister := by
  rw [firstFailingCheck, if_neg (by omega), if_neg (by omega), if_neg (not_lt.mpr hr), if_pos h]

theorem firstFailingCheck_of_legalFields (h : ¬ s.IllegalFieldAt) :
    firstFailingCheck s = dataOrOutputCheck s := by
  rw [firstFailingCheck, if_neg (by omega), if_neg (by omega), if_neg (not_lt.mpr hr), if_neg h]
  rfl

end LegalOpcode

/-! What the bytes at IP say about the instruction they encode. -/

theorem atLegalOpcode_of_opcodeLength {s : State} {len : Nat} (hip : s.ip.toNat < MEMORY_SIZE)
    (h : opcodeLength (s.mem.read s.ip.toNat) = some len) : s.AtLegalOpcode := by
  have hc := opcodeLength_cases h
  rw [← opcodeAt] at hc
  exact ⟨hip, by omega, by omega⟩

theorem opcodeLength_eq_none {op : Byte} (h : opcodeLength op = none) : op.toNat = 0 ∨ 9 ≤ op.toNat := by
  unfold opcodeLength at h
  split at h
  case h_9 =>
    simp only [imp_false] at *
    omega
  all_goals cases h

theorem opcodeAt_of_codeAt {s : State} {op : Byte} {rest : List Byte} (h : s.CodeAt (op :: rest)) :
    opcodeAt s = op.toNat :=
  congrArg BitVec.toNat (operandByte_of_codeAt h (k := 0) (by simp))

/-- The register fields follow the opcode byte; what follows them is no field (R61). -/
theorem encode_eq_regFields (i : Instr) : ∃ op imm, encode i = op :: (i.regFields ++ imm) := by
  cases i <;> exact ⟨_, _, rfl⟩

section CodeAt
variable {s : State} {i : Instr} (hc : s.CodeAt (encode i))
include hc

theorem opcodeLength_of_codeAt : opcodeLength (s.mem.read s.ip.toNat) = some (encode i).length := by
  obtain ⟨op, rest, he, hop⟩ := encodedLength i
  have h0 : operandByte s 0 = op := by simpa [he] using operandByte_of_codeAt hc (k := 0) (by simp [he])
  exact (congrArg opcodeLength h0).trans hop

theorem lengthAt_of_codeAt : lengthAt s = (encode i).length := lengthAt_eq (opcodeLength_of_codeAt hc)

theorem fieldsAt_of_codeAt : fieldsAt s = i.regFields.length := by
  cases i <;> simp [fieldsAt, opcodeAt_of_codeAt hc, Instr.regFields]

theorem illegalFieldAt_iff : s.IllegalFieldAt ↔ ∃ f ∈ i.regFields, NUM_REGS ≤ f.toNat := by
  obtain ⟨op, imm, he⟩ := encode_eq_regFields i
  have hfield : ∀ k, (hk : k < i.regFields.length) → operandByte s (k + 1) = i.regFields[k] :=
    fun k hk => by
      rw [operandByte_of_codeAt hc (by simp [he]; omega)]
      simp [he, hk]
  rw [State.IllegalFieldAt, fieldsAt_of_codeAt hc]
  constructor
  · rintro ⟨k, hk, h⟩
    exact ⟨_, List.getElem_mem hk, hfield k hk ▸ h⟩
  · rintro ⟨f, hf, h⟩
    obtain ⟨k, hk, rfl⟩ := List.getElem_of_mem hf
    exact ⟨k, hk, hfield k hk ▸ h⟩

end CodeAt

/-- An illegal field ends any instruction before it does anything else (R85). -/
theorem exec_illegalField {i : Instr} (s : State) (h : ∃ f ∈ i.regFields, NUM_REGS ≤ f.toNat) :
    exec i s = .next (raise .invalidRegister s) := by
  cases i <;> simp only [Instr.regFields, List.mem_cons, List.not_mem_nil, or_false, false_and,
    exists_false, exists_eq_or_imp, exists_eq_left] at h
  case condMove | sub => exact congrArg _ (withRegs3_illegal s _ h)
  case store | load => exact congrArg _ (withRegs2_illegal s _ h)
  case loadImmediate | outChar | outInt => exact congrArg _ (withReg_illegal s _ h)

/-- How a step ends, and the check of R202 that decides it. -/
inductive StepEnd (s : State) : State → Prop where
  /-- Phases 1 and 2: IP is not advanced. -/
  | early (k : FaultKind) (hs : MEMORY_SIZE ≤ s.ip.toNat ∨ opcodeAt s = 0 ∨ 9 ≤ opcodeAt s)
      (hk : firstFailingCheck s = some k) : StepEnd s (raise k s)
  /-- Phases 4 to 6, with nothing delivered. -/
  | late (k : FaultKind) (ha : s.AtLegalOpcode) (hk : firstFailingCheck s = some k) :
      StepEnd s (raise k (preAdvance (lengthAt s) s))
  /-- The host rejected byte `p` of the text. -/
  | rejected (p : Nat) (ha : s.AtLegalOpcode) (ho : opcodeAt s = 6 ∨ opcodeAt s = 8)
      (hp : p < (textAt s).length) (hk : firstFailingCheck s = some .outputError) :
      StepEnd s (raise .outputError ((preAdvance (lengthAt s) s).withPort
        (s.port.delivered ((textAt s).take p) (p + 1))))
  | halted {t : State} (ho : opcodeAt s = 7) (hk : firstFailingCheck s = none)
      (ht : t.status = ⟨.halted, none, false⟩) : StepEnd s t
  | continued {t : State} (ho : opcodeAt s ≠ 7) (hk : firstFailingCheck s = none)
      (ht : s.Continues t) : StepEnd s t

section PastFields
variable {s : State} (ha : s.AtLegalOpcode) (hcheck : firstFailingCheck s = dataOrOutputCheck s)
include hcheck

/-- CondMove, LoadImmediate and Sub have no check past the register fields. -/
theorem StepEnd.of_noCheck {t : State} (ho : opcodeAt s = 1 ∨ opcodeAt s = 4 ∨ opcodeAt s = 5)
    (ht : s.Continues t) : StepEnd s t := by
  refine .continued (by omega) ?_ ht
  rw [hcheck, dataOrOutputCheck, if_neg (by omega), if_neg (by omega), if_neg (by omega)]

include ha

/-- A text sent whole goes on; the first rejected byte is check 6. -/
theorem StepEnd.of_emit (ho : opcodeAt s = 6 ∨ opcodeAt s = 8) :
    StepEnd s (emitThenFinish (textAt s) (preAdvance (lengthAt s) s)) := by
  rw [dataOrOutputCheck, if_neg (by omega), if_neg (by omega)] at hcheck
  obtain ⟨hacc, e⟩ | ⟨p, hp, ⟨-, hrej⟩, e⟩ := emitThenFinish_cases (textAt s) (preAdvance (lengthAt s) s)
  · rw [if_neg fun h => h.2 hacc] at hcheck
    exact .continued (by omega) hcheck (by rw [e]; rfl)
  · have hno : ¬ s.Accepts (textAt s).length := fun hacc =>
      Bool.false_ne_true (hrej.symm.trans (hacc p hp))
    rw [if_pos ⟨ho, hno⟩] at hcheck
    exact e ▸ .rejected p ha ho hp hcheck

end PastFields

/-- With every field legal, checks 5 and 6 decide how the instruction at IP ends. -/
theorem step_end_of_legalFields {s : State} {i : Instr} (hc : s.CodeAt (encode i)) (ha : s.AtLegalOpcode)
    (hlegal : ∀ f ∈ i.regFields, f.toNat < NUM_REGS)
    (hcheck : firstFailingCheck s = dataOrOutputCheck s) : ∃ t, step s = .next t ∧ StepEnd s t := by
  have hreg : ∀ f ∈ i.regFields, ∃ r, reg? f = some r := fun f hf => ⟨_, reg?_legal (hlegal f hf)⟩
  have hstep := step_of_codeAt hc
  have hlen := lengthAt_of_codeAt hc
  cases i <;> simp only [Instr.regFields, List.forall_mem_cons] at hreg
  case condMove ri rj rk =>
    obtain ⟨⟨i, hi⟩, ⟨j, hj⟩, ⟨k, hk⟩, -⟩ := hreg
    exact ⟨_, hstep.trans (exec_condMove hi hj hk), .of_noCheck hcheck (.inl (opcodeAt_of_codeAt hc)) rfl⟩
  case store ri rj =>
    have ho : opcodeAt s = 2 := opcodeAt_of_codeAt hc
    obtain ⟨⟨i, hi⟩, ⟨j, hj⟩, -⟩ := hreg
    have hval := operandValue_of_codeAt hc (k := 1) (by simp [encode]) hi
    by_cases hr : InRange (operandValue s 1).toNat 4
    · refine ⟨_, hstep.trans (exec_store_inRange hi hj (hval ▸ hr)), .continued (by omega) ?_ rfl⟩
      simp [hcheck, dataOrOutputCheck, ho, hr]
    · refine ⟨_, hstep.trans (exec_store_outside hi hj (hval ▸ hr)), hlen ▸ .late _ ha ?_⟩
      simp [hcheck, dataOrOutputCheck, ho, not_le.mp hr]
  case load ri rj =>
    have ho : opcodeAt s = 3 := opcodeAt_of_codeAt hc
    obtain ⟨⟨i, hi⟩, ⟨j, hj⟩, -⟩ := hreg
    have hval := operandValue_of_codeAt hc (k := 2) (by simp [encode]) hj
    by_cases hr : InRange (operandValue s 2).toNat 4
    · refine ⟨_, hstep.trans (exec_load_inRange hi hj (hval ▸ hr)), .continued (by omega) ?_ rfl⟩
      simp [hcheck, dataOrOutputCheck, ho, hr]
    · refine ⟨_, hstep.trans (exec_load_outside hi hj (hval ▸ hr)), hlen ▸ .late _ ha ?_⟩
      simp [hcheck, dataOrOutputCheck, ho, not_le.mp hr]
  case loadImmediate ri imm =>
    obtain ⟨⟨i, hi⟩, -⟩ := hreg
    exact ⟨_, hstep.trans (exec_loadImmediate hi imm),
      .of_noCheck hcheck (.inr (.inl (opcodeAt_of_codeAt hc))) rfl⟩
  case sub ri rj rk =>
    obtain ⟨⟨i, hi⟩, ⟨j, hj⟩, ⟨k, hk⟩, -⟩ := hreg
    exact ⟨_, hstep.trans (exec_sub hi hj hk),
      .of_noCheck hcheck (.inr (.inr (opcodeAt_of_codeAt hc))) rfl⟩
  case outChar ri =>
    obtain ⟨⟨i, hi⟩, -⟩ := hreg
    obtain ⟨ho, htext⟩ := textAt_of_outChar hc
    have he := StepEnd.of_emit ha hcheck (.inl ho)
    rw [hlen, ← htext i hi] at he
    exact ⟨_, hstep.trans (exec_outChar hi), he⟩
  case halt =>
    have ho : opcodeAt s = 7 := opcodeAt_of_codeAt hc
    exact ⟨_, hstep.trans (exec_halt _), .halted ho (by simp [hcheck, dataOrOutputCheck, ho]) rfl⟩
  case outInt ri =>
    obtain ⟨⟨i, hi⟩, -⟩ := hreg
    obtain ⟨ho, htext⟩ := textAt_of_outInt hc
    have he := StepEnd.of_emit ha hcheck (.inr ho)
    rw [hlen, ← htext i hi] at he
    exact ⟨_, hstep.trans (exec_outInt hi), he⟩

/-- Every step of a machine ends as the first failing check of R202 says, phase by phase. -/
theorem step_end {s : State} (hl : s.loaded = true) : ∃ t, step s = .next t ∧ StepEnd s t := by
  obtain ⟨hip, e⟩ | ⟨hip, hop, e⟩ | ⟨len, hip, hop, hr, e⟩ | ⟨len, i, hip, hop, hr, hi, -⟩ := step_cases hl
  · have hip := not_lt.mp hip
    exact ⟨_, e, .early _ (.inl hip) (firstFailingCheck_of_ip_outside hip)⟩
  · have hill := opcodeLength_eq_none hop
    exact ⟨_, e, .early _ (.inr hill) (firstFailingCheck_of_illegal_opcode hip hill)⟩
  · obtain rfl := lengthAt_eq hop
    have ha := atLegalOpcode_of_opcodeLength hip hop
    exact ⟨_, e, .late _ ha (firstFailingCheck_of_operands_outside ha (not_le.mp hr))⟩
  · obtain rfl := lengthAt_eq hop
    have ha := atLegalOpcode_of_opcodeLength hip hop
    obtain ⟨hlen, hc⟩ := codeAt_of_decode hl hr hi
    by_cases hf : s.IllegalFieldAt
    · refine ⟨_, ?_, .late _ ha (firstFailingCheck_of_illegalField ha hr hf)⟩
      rw [step_of_codeAt hc, exec_illegalField _ ((illegalFieldAt_iff hc).mp hf), hlen]
    · refine step_end_of_legalFields hc ha (fun f hmem => ?_)
        (firstFailingCheck_of_legalFields ha hr hf)
      exact not_le.mp fun hge => hf ((illegalFieldAt_iff hc).mpr ⟨f, hmem, hge⟩)

/-- Settles O10, by how the step ends. -/
theorem stepReportsFirstFailingCheck : Obligations.StepReportsFirstFailingCheck := by
  intro s hl
  obtain ⟨t, h, he⟩ := step_end hl
  refine ⟨t, h, ?_⟩
  cases he with
  | early k hs hk | late k ha hk => rw [hk]; rfl
  | rejected p ha ho hp hk => rw [hk]; rfl
  | halted ho hk ht => simp [hk, ho, ht]
  | continued ho hk ht => simpa [hk, ho] using ht

/-- An OutChar offers one byte, so it delivers nothing before a rejection (R161). -/
theorem opcode_eight_or_take_textAt_nil {s : State} {p : Nat} (ho : opcodeAt s = 6 ∨ opcodeAt s = 8)
    (hp : p < (textAt s).length) : opcodeAt s = 8 ∨ (textAt s).take p = [] := by
  obtain h6 | h8 := ho
  · rw [textAt, if_pos h6, List.length_singleton, Nat.lt_one_iff] at hp
    exact .inr (by rw [hp, List.take_zero])
  · exact .inl h8

/-- Settles O11: of the ends of a step only the three faults record one, and none of them changes more than
STATUS, the pre-advanced IP and the host's side. -/
theorem faultLeavesAllButIp : Obligations.FaultLeavesAllButIp := by
  intro s t k h hk
  cases hl : s.loaded with
  | false => simp [step_unloaded hl] at h
  | true =>
    obtain ⟨u, hu, he⟩ := step_end hl
    cases hu.symm.trans h
    cases he with
    | early k' hs =>
      exact ⟨fun _ _ => rfl, fun _ => rfl, fun _ => ⟨rfl, rfl⟩, fun ha => by omega⟩
    | late k' ha =>
      exact ⟨sameRegsBut_preAdvance _ s, fun _ => rfl, fun hs => by omega,
        fun _ => ⟨readReg_writeReg_same .., .inl rfl⟩⟩
    | rejected p ha ho hp =>
      cases hk
      refine ⟨sameRegsBut_preAdvance _ s, fun _ => rfl, fun hs => by omega,
        fun _ => ⟨readReg_writeReg_same .., ?_⟩⟩
      obtain h8 | hnil := opcode_eight_or_take_textAt_nil ho hp
      · exact .inr ⟨h8, rfl, p, hp, rfl⟩
      · exact .inl ((congrArg _ hnil).trans (List.append_nil _))
    | halted ho hn ht | continued ho hn ht => simp [ht] at hk

end Sys2Proof.Machine

namespace Sys2Proof.Machine

/-! ### A Store into the next instruction (R54, R242) -/

/-- A Store through register 0 writes at the advanced IP and goes on there (R83, R120). -/
theorem step_storeAtIp {s : State} {rj : RegField} {j : Reg} (hc : s.CodeAt (encode (.store 0 rj)))
    (hr : InRange (s.ip.toNat + 3) 4) (hj : reg? rj = some j) (hne : j ≠ IP) :
    ∃ t, step s = .next t ∧ t.ip.toNat = s.ip.toNat + 3 ∧ t.loaded = s.loaded
      ∧ t.mem = s.mem.memWrite (s.ip.toNat + 3) 4 (s.readReg j).toNat := by
  have hip : ((preAdvance 3 s).readReg IP).toNat = s.ip.toNat + 3 := by
    rw [readReg_preAdvance, if_pos rfl]
    exact toNat_ip_advance (by omega) (by decide)
  have hexec := exec_store_inRange (s := preAdvance 3 s) (ri := 0) (i := IP) rfl hj (hip.symm ▸ hr)
  rw [hip, sameRegsBut_preAdvance 3 s j hne] at hexec
  exact ⟨_, (step_of_codeAt hc).trans hexec, hip, rfl, rfl⟩

/-- The bytes a memory write leaves at its address are the first of the value's, least significant first. -/
theorem readBytes_memWrite {m : Memory} {a n v k : Nat} (h : m.wf = true) (ha : InRange a n) (hk : k ≤ n) :
    (m.memWrite a n v).readBytes a k = (leBytes n v).take k :=
  readBytes_writeBytes h (by simpa using ha) (by simpa using hk)

/-- Settles O30: the step after the Store finds the code of the stored instruction at the advanced IP. -/
theorem nextFetchSeesTheStore : Obligations.NextFetchSeesTheStore := by
  intro s rj j i hwf hc hr hj hne hi
  have hlen : (encode i).length ≤ 4 := length_encode_le i
  obtain ⟨t, hstep, hip, hloaded, hmem⟩ := step_storeAtIp hc hr hj hne
  obtain ⟨hl, -, -⟩ := hc
  have hcode : t.CodeAt (encode i) := by
    rw [State.CodeAt, hip, hmem]
    exact ⟨hloaded.trans hl, by omega, (readBytes_memWrite hwf hr hlen).trans hi.symm⟩
  exact ⟨t, hstep, hip, step_of_codeAt hcode⟩

/-! ### LOAD (R230, R234) -/

/-- A LOAD that fits leaves the image in memory (R230). -/
theorem read_loadImage_inside {image : List Byte} {a : Nat} (s : State)
    (hl : image.length ≤ MEMORY_SIZE) (h : a < image.length) : (loadImage image s).mem.read a = image[a] := by
  have hread := read_writeBytes_inside (m := []) (a := 0) rfl (by omega) h
  rwa [Nat.zero_add] at hread

/-- Behind the image every byte is the zero fill (R230). -/
theorem read_loadImage_outside {image : List Byte} {a : Nat} (s : State) (h : image.length ≤ a) :
    (loadImage image s).mem.read a = 0 :=
  read_writeBytes_outside (m := []) (by omega)

theorem readReg_loadImage (image : List Byte) (s : State) (r : Reg) : (loadImage image s).readReg r = 0 := by
  simp [loadImage, State.readReg, State.reset]

/-- Settles O35: the two branches of LOAD, the image's length deciding. -/
theorem loadResetsTheCore : Obligations.LoadResetsTheCore := by
  intro image s hr
  refine ⟨fun hfit => ?_, fun hover => ?_⟩
  · have hload : transact (.load image) s = .done (loadImage image s) :=
      (transact_load hr).trans (congrArg _ (if_pos hfit))
    exact ⟨_, hload, fun a h => read_loadImage_inside s hfit h, fun a h _ => read_loadImage_outside s h,
      readReg_loadImage image s, rfl, rfl, rfl⟩
  · have hload : transact (.load image) s = .done (loadFails s) :=
      (transact_load hr).trans (congrArg _ (if_neg (not_le.mpr hover)))
    exact ⟨_, hload, rfl, rfl, rfl⟩

/-- Settles O37: byte 0 of the loaded memory, the image's or the zero fill, is no legal opcode. -/
theorem badFirstByteFaultsAtOnce : Obligations.BadFirstByteFaultsAtOnce := by
  intro image s t hr hfit hbad hload
  obtain rfl : loadImage image s = t := by
    simpa [transact_load hr, load, hfit] using hload
  have hip : (loadImage image s).ip = 0 := readReg_loadImage image s IP
  have hop : opcodeLength ((loadImage image s).mem.read (loadImage image s).ip.toNat) = none := by
    apply opcodeLength_illegal
    rw [hip]
    by_cases h0 : 0 < image.length
    · exact (read_loadImage_inside s hfit h0).symm ▸ hbad h0
    · exact .inl (congrArg _ (read_loadImage_outside s (by omega)))
  have hstep := step_of_illegal_opcode (s := loadImage image s) rfl (by rw [hip]; decide) hop
  exact ⟨_, (transact_step rfl).trans (ofStep_eq_done.mpr hstep), hip, rfl⟩

/-! ### No machine, and a RUN in progress (R231, R235) -/

/-- Settles O39. -/
theorem noMachineRefuses : Obligations.NoMachineRefuses :=
  ⟨fun _ hl => ⟨step_unloaded hl, fun hr => ⟨transact_unloaded hr hl nofun, transact_unloaded hr hl nofun,
    fun _ _ => transact_unloaded hr hl nofun⟩⟩, rfl, rfl⟩

/-- Settles O41: the STATUS read shows RUNNING by `statusBits`. -/
theorem transactionsWaitForRun : Obligations.TransactionsWaitForRun := by
  intro s tr n a hr
  obtain ⟨-, -, hbit, -⟩ := statusBits s.status
  exact ⟨transact_running tr hr, if_pos hr, if_pos hr, hbit.trans hr⟩

end Sys2Proof.Machine
